-- ==== Sys2Proof/Word.lean ====
section
/-! DEFINITION. The fixed widths of BUCM (00_scope.md R10, 30_encoding.md R91, R94): bytes, bus words, stream tokens. -/

namespace Sys2Proof

/-- One byte: a LUT channel, half a raw sample, one raster channel (R10). -/
abbrev Byte := BitVec 8

/-- One word of the HOST bus: 32-bit data and 32-bit byte addresses (R10, R60). -/
abbrev Word := BitVec 32

/-- One beat of the stream port: KIND in bit 8, DATA in bits 7 to 0 (R94). -/
abbrev Token := BitVec 9

end Sys2Proof
end

