-- ==== Sys2Proof/Config.lean ====
section
/-! DEFINITION. What an implementation fixes (00_scope.md R9, 20_memory.md R75) and the free values: what the spec
leaves open, held as constants without a body. -/

namespace Sys2Proof.Config

/-- The parameters of one implementation (R9, R75). They are plain data of the state, so that every claim about all
states is a claim about every parameter value (92_eei_decisions.md D14). No step changes them. -/
structure Params where
  /-- `LUT_DEPTH`: entries the LUT memory holds -/
  lutDepth : Nat
  /-- `MAX_MAG`: largest magnification START accepts -/
  maxMag : Nat
  /-- `MAX_FRAME_SAMPLES`: largest `width·height` START accepts -/
  maxFrameSamples : Nat
  /-- `MAX_RASTER_PIXELS`: largest `width·height·m²` START accepts -/
  maxRasterPixels : Nat
  /-- `BUCM_BASE`: where the platform places the block (R61, R75) -/
  base : Word
  deriving DecidableEq, Repr

/-- The reference configuration of R9, at the base address 0 of the test vectors (95_test_vectors.md). -/
def Params.reference : Params where
  lutDepth := 65536
  maxMag := 16
  maxFrameSamples := 65536
  maxRasterPixels := 4194304
  base := 0

/-- The three agents of R7. -/
inductive Agent where
  | host
  | source
  | engine
  deriving DecidableEq, Repr, Inhabited

/-- A draw: the byte the `k`-th open value takes (R67 (b), R78, R155, R168; 93_implementation_defined.md I1, I2, I5, I6).
The machine's draw counter gives each draw a number of its own. -/
opaque freeByte : Nat → Byte

/-- The content of a frame buffer byte that nothing has written, should the ENGINE read one. R134 says it never does. -/
opaque unwrittenFrameByte : Nat → Byte

/-- Which offending index ERRINFO holds after LUT_RANGE (R155, I3): a number taken modulo how many there are. -/
opaque freeChoice : Nat → Nat

/-- Which agent moves next where the schedule held in the state says nothing (R8, I7). -/
opaque freeAgent : Nat → Agent

end Sys2Proof.Config
end

