-- ==== Sys2Proof/Syntax.lean ====
section
/-! DEFINITION. The instructions of BUCM: one constructor per row of spec/opcode_table.json, and the two forms their
bits come in (30_encoding.md R90). -/

namespace Sys2Proof

/-- The commands of the HOST, the tokens of the SOURCE and the ENGINE's own step. -/
inductive Instr where
  /-- NOP (43_control_commands.md R165) -/
  | nop
  /-- START (R166) -/
  | start
  /-- RELEASE (R167) -/
  | release
  /-- RESET (R168) -/
  | reset
  /-- BYTE(b) (41_frame_reader.md R131) -/
  | byte (b : Byte)
  /-- END (R136) -/
  | endOfStream
  /-- a token with KIND = 1 and DATA other than 0 (R137) -/
  | reservedToken (data : Byte)
  /-- PROCESS_FRAME, the ENGINE step of 42_upscale_colormap.md R155 -/
  | processFrame
  deriving DecidableEq, Repr

/-- Where an instruction comes from: the two formats of R90, and the ENGINE step, which no bit pattern selects (R155). -/
inductive Beat where
  /-- a CMD word the HOST writes (R91) -/
  | cmd (w : Word)
  /-- a token the SOURCE sends (R94) -/
  | token (t : Token)
  /-- the ENGINE's step in state PROC, which has no bits -/
  | engineStep
  deriving DecidableEq, Repr

end Sys2Proof
end

