-- ==== Sys2Proof/WellFormed.lean ====
section
/-! DEFINITION. The checks: an instruction as the encodings admit it (30_encoding.md R94, R98), and parameters in the
ranges of 00_scope.md R9 with the base aligned as 20_memory.md R61 says. -/

namespace Sys2Proof

/-- A reserved token's DATA is not 0: the token with KIND = 1 and DATA = 0 is END (R94). -/
def Instr.wellFormed : Instr → Bool
  | .nop => true
  | .start => true
  | .release => true
  | .reset => true
  | .byte _ => true
  | .endOfStream => true
  | .reservedToken data => decide (data ≠ 0)
  | .processFrame => true

/-- The legal ranges of R9, and `BUCM_BASE` aligned to 2^28 (R61). -/
def Config.Params.wellFormed (p : Config.Params) : Bool :=
  decide (1 ≤ p.lutDepth ∧ p.lutDepth ≤ 65536) &&
  decide (1 ≤ p.maxMag ∧ p.maxMag ≤ 255) &&
  decide (1 ≤ p.maxFrameSamples ∧ p.maxFrameSamples ≤ 524288) &&
  decide (1 ≤ p.maxRasterPixels ∧ p.maxRasterPixels ≤ 4194304) &&
  decide (p.base.toNat % 2 ^ 28 = 0)

end Sys2Proof
end

