-- ==== Sys2Proof/Decode.lean ====
section
/-! DEFINITION. The decoder of 30_encoding.md R93, R94, R98, total on any bits, and the encoder written from the same
tables. -/

namespace Sys2Proof

/-- Why bits are no instruction. -/
inductive DecodeError where
  /-- a CMD word other than 0 to 3: the machine raises ILLEGAL_CMD for it (R93, R98) -/
  | illegalCommand (w : Word)
  /-- a number of bytes that neither format has (R90, R99) -/
  | badLength (n : Nat)
  /-- two bytes that are no 9-bit token: a bit above bit 8 is set (R94) -/
  | badTokenPadding (hi : Byte)
  deriving DecidableEq, Repr

/-- R93: the decode of a CMD write, on the word alone. -/
def decodeCommand (w : Word) : Except DecodeError Instr :=
  if w = 0x00000000 then .ok .nop
  else if w = 0x00000001 then .ok .start
  else if w = 0x00000002 then .ok .release
  else if w = 0x00000003 then .ok .reset
  else .error (.illegalCommand w)

/-- KIND, bit 8 of a token (R94). -/
def tokenKind (t : Token) : Bool := t.getLsbD 8

/-- DATA, bits 7 to 0 of a token (R94). -/
def tokenData (t : Token) : Byte := t.extractLsb' 0 8

/-- The token `(KIND, DATA)`, KIND in bit 8 (R94). -/
def tokenOf (kind : Bool) (data : Byte) : Token := BitVec.ofBool kind ++ data

/-- R94: every one of the 512 tokens is a BYTE, END or a reserved token. -/
def decodeToken (t : Token) : Instr :=
  if tokenKind t = false then .byte (tokenData t)
  else if tokenData t = 0 then .endOfStream
  else .reservedToken (tokenData t)

/-- The decode of one beat. It reads the bits only, never the machine's state (R93). -/
def decode : Beat → Except DecodeError Instr
  | .cmd w => decodeCommand w
  | .token t => .ok (decodeToken t)
  | .engineStep => .ok .processFrame

/-- A beat from its bytes, the lowest address first: four bytes of the little-endian bus are a CMD word (R68), two bytes
hold a token in their low nine bits, and the ENGINE step has no bytes (the last two layouts: DESIGN CHOICE, log 14). -/
def beatOfBytes : List Byte → Except DecodeError Beat
  | [] => .ok .engineStep
  | [lo, hi] =>
    if hi.toNat < 2 then .ok (.token (hi.extractLsb' 0 1 ++ lo)) else .error (.badTokenPadding hi)
  | [b0, b1, b2, b3] => .ok (.cmd (b3 ++ b2 ++ b1 ++ b0))
  | bytes => .error (.badLength bytes.length)

/-- The decoder on bytes. -/
def decodeBytes (bytes : List Byte) : Except DecodeError Instr :=
  match beatOfBytes bytes with
  | .ok beat => decode beat
  | .error e => .error e

/-- The beat of an instruction, from R92 and R94. -/
def encode : Instr → Beat
  | .nop => .cmd 0x00000000
  | .start => .cmd 0x00000001
  | .release => .cmd 0x00000002
  | .reset => .cmd 0x00000003
  | .byte b => .token (tokenOf false b)
  | .endOfStream => .token 0x100
  | .reservedToken data => .token (tokenOf true data)
  | .processFrame => .engineStep

/-- A beat's bytes, the lowest address first. -/
def bytesOfBeat : Beat → List Byte
  | .cmd w => [w.extractLsb' 0 8, w.extractLsb' 8 8, w.extractLsb' 16 8, w.extractLsb' 24 8]
  | .token t => [t.extractLsb' 0 8, (t.extractLsb' 8 1).setWidth 8]
  | .engineStep => []

/-- The bytes of an instruction. -/
def encodeBytes (i : Instr) : List Byte := bytesOfBeat (encode i)

/-- The low `n` bytes of a number, the lowest first. -/
def bytesOfNat (n w : Nat) : List Byte := (List.range n).map fun k => BitVec.ofNat 8 (w / 2 ^ (8 * k))

/-- How many bytes a table row of `nbits` bits takes. -/
def bytesFor (nbits : Nat) : Nat := (nbits + 7) / 8

/-- The instruction the decoder reads from an opcode table word of `nbits` bits. -/
def decodeTableWord (nbits w : Nat) : Option Instr :=
  match decodeBytes (bytesOfNat (bytesFor nbits) w) with
  | .ok i => some i
  | .error _ => none

end Sys2Proof
end

