-- ==== Sys2Proof/Machine/State.lean ====
section
/-! DEFINITION. The state of BUCM as plain data (10_state.md R20 to R53, 20_memory.md R63 to R65), the agents' pending
inputs, and the machine right after reset (R52). -/

namespace Sys2Proof.Machine

open Sys2Proof.Config (Params Agent)

/-- The ENGINE states of R21. Codes 6 and 7 do not exist. -/
inductive EngineState where
  | idle
  | run
  | proc
  | hold
  | done
  | error
  deriving DecidableEq, Repr

/-- The error codes 0 to 7 of 60_exceptions.md R180. Codes 8 to 15 are never recorded. -/
inductive ErrorCode where
  | none
  | illegalCmd
  | cmdState
  | cfgInvalid
  | writeActive
  | busAlign
  | lutRange
  | illegalToken
  deriving DecidableEq, Repr

/-- A memory in its canonical form: addresses strictly rising, an unlisted address holds no value (20_memory.md R67). -/
abbrev Memory := List Host.Cell

/-- One operation of the HOST's program. What a HOST does with what it waited for is its own: the forms of the last three
are a DESIGN CHOICE (log 4, log 23). -/
inductive HostOp where
  /-- a bus read (20_memory.md R70) -/
  | read (addr : Word) (n : Nat)
  /-- a bus write (20_memory.md R71) -/
  | write (addr : Word) (n : Nat) (v : Word)
  /-- the `wait` loop of 30_encoding.md R101, by polling STATUS -/
  | waitFor (target : EngineState)
  /-- waiting for the `irq` output (43_control_commands.md R171, R172), with no bus access -/
  | waitIrq
  /-- the check of START in step 4 of the boot sequence (70_reset_and_hazards.md R205) -/
  | checkRun
  /-- the frame loop of 43_control_commands.md R172 where it reads STATUS, going back to polling or to waiting for `irq` -/
  | frameLoop (byIrq : Bool)
  deriving DecidableEq, Repr

/-- One entry of the schedule: an agent's turn (00_scope.md R7, R8) or the reset input `rst` (70_reset_and_hazards.md R200). -/
inductive Turn where
  | agent (a : Agent)
  | rst
  deriving DecidableEq, Repr

/-- Why a step stops with a fault: never. BUCM's errors are states (R183), and the one model fault of the spec,
UNWRITTEN_LUT_READ, is recorded while the machine goes on (R67, R185), so this type has no constructor. -/
inductive Fault where
  deriving DecidableEq, Repr

/-- Why a step has no meaning. -/
inductive Refusal where
  /-- Raised by `exec` for an instruction that has no meaning yet. No arm raises it now. Safe. -/
  | notModelled (mnemonic : String)
  deriving DecidableEq, Repr

/-- The whole state. Fields down to `raster` are the spec's; the others are the model's own: the recorded model fault
(R185), the draw counter of the free values, and the inputs the agents have not yet taken. -/
structure State where
  /-- the implementation's parameters (R9, R75); no step changes them -/
  params : Params
  /-- `state` (R21) -/
  engine : EngineState
  /-- STATUS.ERRCODE (R31) -/
  errCode : ErrorCode
  /-- ERRINFO (R32) -/
  errInfo : Word
  /-- FRAME_W[15:0] (R35); reserved bits have no storage (R26) -/
  frameW : BitVec 16
  /-- FRAME_H[15:0] (R36) -/
  frameH : BitVec 16
  /-- MAG[7:0] (R37) -/
  mag : BitVec 8
  /-- LUT_SIZE[16:0] (R39) -/
  lutSize : BitVec 17
  /-- IRQ_EN[2:0]: FRAME_READY_EN, EOS_EN, ERR_EN (R40) -/
  irqEn : BitVec 3
  /-- FRAME_SEQ (R47) -/
  frameSeq : Word
  /-- IN_COUNT (R42) -/
  inCount : Word
  /-- the LUT memory, by LUT byte (R63) -/
  lut : Memory
  /-- the frame buffer, by frame buffer byte (R64) -/
  frameBuf : Memory
  /-- the raster memory, by raster byte (R65) -/
  raster : Memory
  /-- the model fault UNWRITTEN_LUT_READ, once recorded never cleared (R67, R185) -/
  unwrittenLutRead : Bool
  /-- how many free values have been drawn -/
  draws : Nat
  /-- whose turns come next (R8); where the list is empty the turn is a free choice -/
  schedule : List Turn
  /-- the HOST's operations not yet performed -/
  hostOps : List HostOp
  /-- the SOURCE's tokens not yet accepted (R86) -/
  stream : List Token
  /-- the data the HOST's bus reads returned, the newest first -/
  hostLog : List Word
  deriving DecidableEq, Repr

/-- Power-on values (R52, R200) for given parameters, with no input pending. -/
def State.powerOn (p : Params) : State where
  params := p
  engine := .idle
  errCode := .none
  errInfo := 0
  frameW := 0
  frameH := 0
  mag := 1
  lutSize := BitVec.ofNat 17 p.lutDepth
  irqEn := 0
  frameSeq := 0
  inCount := 0
  lut := []
  frameBuf := []
  raster := []
  unwrittenLutRead := false
  draws := 0
  schedule := []
  hostOps := []
  stream := []
  hostLog := []

/-- The machine right after reset, in the reference configuration. -/
def State.reset : State := State.powerOn Params.reference

end Sys2Proof.Machine
end

