-- ==== Sys2Proof/Machine/Operands.lean ====
section
/-! DEFINITION. The operands of the instructions (30_encoding.md R96, R97): the configuration registers read as unsigned
integers, and the sizes computed from them. -/

namespace Sys2Proof.Machine

/-- The code of an ENGINE state (10_state.md R21). -/
def EngineState.code : EngineState → BitVec 3
  | .idle => 0
  | .run => 1
  | .proc => 2
  | .hold => 3
  | .done => 4
  | .error => 5

/-- The code of an error (60_exceptions.md R180). -/
def ErrorCode.code : ErrorCode → BitVec 4
  | .none => 0
  | .illegalCmd => 1
  | .cmdState => 2
  | .cfgInvalid => 3
  | .writeActive => 4
  | .busAlign => 5
  | .lutRange => 6
  | .illegalToken => 7

/-- `width = FRAME_W[15:0]` (R35). -/
def State.width (s : State) : Nat := s.frameW.toNat

/-- `height = FRAME_H[15:0]` (R36). -/
def State.height (s : State) : Nat := s.frameH.toNat

/-- `m = MAG[7:0]` (R37). -/
def State.m (s : State) : Nat := s.mag.toNat

/-- `tableSize = LUT_SIZE[16:0]` (R39). -/
def State.tableSize (s : State) : Nat := s.lutSize.toNat

/-- FB, the bytes of one frame (41_frame_reader.md R131). -/
def State.frameBytes (s : State) : Nat := 2 * s.width * s.height

/-- OUT_W (R43). -/
def State.outW (s : State) : Nat := s.width * s.m

/-- OUT_H (R44). -/
def State.outH (s : State) : Nat := s.height * s.m

/-- The bytes of one raster, `4·OUT_W·OUT_H` (20_memory.md R65). -/
def State.rasterBytes (s : State) : Nat := 4 * s.outW * s.outH

/-- The bytes the LUT memory backs (R61, R63). -/
def State.lutBytes (s : State) : Nat := 3 * s.params.lutDepth

/-- The bytes the frame buffer backs (R61, R64). -/
def State.frameBufBytes (s : State) : Nat := 2 * s.params.maxFrameSamples

/-- The bytes the raster memory backs (R61, R65). -/
def State.rasterMemBytes (s : State) : Nat := 4 * s.params.maxRasterPixels

/-- START's check mask, bit 0 first, one bit per check of 43_control_commands.md R166. -/
def State.configMask (s : State) : BitVec 8 :=
  BitVec.ofBoolListLE
    [ decide (s.width = 0),
      decide (s.height = 0),
      decide (s.m = 0),
      decide (s.m > s.params.maxMag),
      decide (s.width * s.height > s.params.maxFrameSamples),
      decide (s.width * s.height * s.m * s.m > s.params.maxRasterPixels),
      decide (s.tableSize = 0),
      decide (s.tableSize > s.params.lutDepth) ]

/-- ERRINFO of CMD_STATE: `state` in bits 10:8, the opcode in bits 7:0 (R180). -/
def cmdStateInfo (e : EngineState) (opcode : Byte) : Word := 0#21 ++ e.code ++ opcode

end Sys2Proof.Machine
end

