-- ==== Sys2Proof/Machine/Ops.lean ====
section
/-! DEFINITION. The named operations: reading and writing a memory, drawing free values, raising an error
(60_exceptions.md R183) and, beside it, the only ways out of one: the soft reset (10_state.md R53) and the power-on reset
(70_reset_and_hazards.md R200). -/

namespace Sys2Proof.Machine

/-- What an unlisted address reads as: no value (20_memory.md R67). -/
abbrev Memory.unlisted : Option Byte := none

/-- The byte at an address, if one has been written (R67). -/
def Memory.read : Memory → Nat → Option Byte
  | [], _ => Memory.unlisted
  | (k, b) :: m, a => if k = a then some b else Memory.read m a

/-- Store one byte, keeping the canonical form. -/
def Memory.write : Memory → Nat → Byte → Memory
  | [], a, b => [(a, b)]
  | (k, c) :: m, a, b =>
    if a < k then (a, b) :: (k, c) :: m
    else if a = k then (a, b) :: m
    else (k, c) :: Memory.write m a b

/-- Store `f a` at every address `a` below `n`, and keep what lies above. -/
def Memory.fill (m : Memory) (n : Nat) (f : Nat → Byte) : Memory :=
  (List.range n).map (fun a => (a, f a)) ++ m.filter (fun c => decide (n ≤ c.1))

/-- The canonical form: addresses strictly rising. An unlisted address has no value, so no entry equals what it reads as. -/
abbrev Memory.wf (m : Memory) : Prop := m.Pairwise (fun c d => c.1 < d.1)

/-- Every listed address lies below `n`. -/
abbrev Memory.within (m : Memory) (n : Nat) : Prop := ∀ c ∈ m, c.1 < n

/-- `raise Error(code, info)` (R183): the first error is kept. -/
def raiseError (code : ErrorCode) (info : Word) (s : State) : State :=
  if s.engine = .error then s
  else { s with errCode := code, errInfo := info, engine := .error }

/-- Raster bytes `0 .. 4·OUT_W·OUT_H − 1` become unspecified: each a fresh draw, fixed until rewritten (R53, R155; I2). -/
def scrambleRaster (s : State) : State :=
  { s with
    raster := s.raster.fill s.rasterBytes (fun a => Config.freeByte (s.draws + a))
    draws := s.draws + s.rasterBytes }

/-- The values of a soft reset (R53, R168). -/
def clearRun (s : State) : State :=
  { s with engine := .idle, errCode := .none, errInfo := 0, frameSeq := 0, inCount := 0 }

/-- Soft reset (R168): taken in PROC it abandons PROCESS_FRAME, and the raster becomes unspecified. -/
def softReset (s : State) : State :=
  clearRun (if s.engine = .proc then scrambleRaster s else s)

/-- Power-on reset (R200, R52). Recorded model faults stay (R185); what the agents have pending is theirs. -/
def powerOnReset (s : State) : State :=
  { State.powerOn s.params with
    unwrittenLutRead := s.unwrittenLutRead
    draws := s.draws
    schedule := s.schedule
    hostOps := s.hostOps
    stream := s.stream
    hostLog := s.hostLog }

end Sys2Proof.Machine
end

