-- ==== Sys2Proof/Machine/Flags.lean ====
section
/-! DEFINITION. The flags: STATUS decoded from the state (10_state.md R29, R30), the interrupt level (60_exceptions.md
R187) and the stream port's signals (30_encoding.md R95). None has storage of its own. -/

namespace Sys2Proof.Machine

/-- STATUS.FRAME_READY (R29). -/
def State.frameReady (s : State) : Bool := decide (s.engine = .hold)

/-- STATUS.EOS (R29). -/
def State.eos (s : State) : Bool := decide (s.engine = .done)

/-- STATUS.ERR (R29). -/
def State.err (s : State) : Bool := decide (s.engine = .error)

/-- STATUS.BUSY (R29). -/
def State.busy (s : State) : Bool := decide (s.engine = .proc)

/-- The level of the `irq` output (R187). -/
def State.irq (s : State) : Bool :=
  (s.irqEn.getLsbD 0 && s.frameReady) || (s.irqEn.getLsbD 1 && s.eos) || (s.irqEn.getLsbD 2 && s.err)

/-- The STATUS word (R29), bit 31 first. -/
def State.status (s : State) : Word :=
  0#20 ++ s.errCode.code ++ BitVec.ofBool s.irq ++ BitVec.ofBool s.busy ++ BitVec.ofBool s.err
    ++ BitVec.ofBool s.eos ++ BitVec.ofBool s.frameReady ++ s.engine.code

/-- `in_ready` (10_state.md R51, 41_frame_reader.md R130). -/
def State.inReady (s : State) : Bool := decide (s.engine = .run)

/-- `in_valid` (R95): the SOURCE offers a token. -/
def State.inValid (s : State) : Bool := !s.stream.isEmpty

/-- `in_kind` (R95): KIND of the token offered. -/
def State.inKind (s : State) : Option Bool := s.stream.head?.map tokenKind

/-- `in_data` (R95): DATA of the token offered. -/
def State.inData (s : State) : Option Byte := s.stream.head?.map tokenData

end Sys2Proof.Machine
end

