-- ==== Sys2Proof/Machine/Command.lean ====
section
/-! DEFINITION. The commands of the HOST (43_control_commands.md R165 to R169). -/

namespace Sys2Proof.Machine

/-- NOP (R165): no effect, in every state. -/
def execNop (s : State) : Host.Outcome State Fault Refusal := .next s

/-- START (R166): `state` is checked first, then the whole configuration at once. -/
def execStart (s : State) : Host.Outcome State Fault Refusal :=
  if s.engine ≠ .idle then
    .next (raiseError .cmdState (cmdStateInfo s.engine 0x01) s)
  else if s.configMask ≠ 0 then
    .next (raiseError .cfgInvalid (s.configMask.setWidth 32) s)
  else
    .next { s with inCount := 0, frameSeq := 0, engine := .run }

/-- RELEASE (R167): the HOST has finished with the raster. -/
def execRelease (s : State) : Host.Outcome State Fault Refusal :=
  if s.engine ≠ .hold then
    .next (raiseError .cmdState (cmdStateInfo s.engine 0x02) s)
  else
    .next { s with inCount := 0, engine := .run }

/-- RESET (R168): legal in every state. -/
def execReset (s : State) : Host.Outcome State Fault Refusal := .next (softReset s)

end Sys2Proof.Machine
end

