-- ==== Sys2Proof/Machine/Resample.lean ====
section
/-! DEFINITION. The datapath: sample assembly and the edge-clamped read (41_frame_reader.md R133, R134), the bilinear
numerator and the gradient index (42_upscale_colormap.md R146 to R149), the LUT lookup and the pixel function (R150 to
R153). All arithmetic is exact, on natural numbers (00_scope.md R13). -/

namespace Sys2Proof.Machine

/-- A frame buffer byte as the ENGINE reads it. R134: all bytes of a frame are written when it does. -/
def State.frameByte (s : State) (a : Nat) : Byte := (s.frameBuf.read a).getD (Config.unwrittenFrameByte a)

/-- `sample(k)`, low byte first (R133). -/
def State.sample (s : State) (k : Nat) : BitVec 16 := s.frameByte (2 * k + 1) ++ s.frameByte (2 * k)

/-- `S(x, y)`, the edge-clamped sample read (R134). -/
def State.sampleAt (s : State) (x y : Nat) : Nat :=
  (s.sample (min y (s.height - 1) * s.width + min x (s.width - 1))).toNat

/-- `m' = max(m − 1, 1)` (R146). -/
def State.subDivisor (s : State) : Nat := max (s.m - 1) 1

/-- `D = m'²` (R146). -/
def State.weightSum (s : State) : Nat := s.subDivisor * s.subDivisor

/-- The bilinear numerator `Bil(i, j, ri, rj)` (R147). -/
def State.bil (s : State) (i j ri rj : Nat) : Nat :=
  (s.subDivisor - ri) * (s.subDivisor - rj) * s.sampleAt i j
    + ri * (s.subDivisor - rj) * s.sampleAt (i + 1) j
    + (s.subDivisor - ri) * rj * s.sampleAt i (j + 1)
    + ri * rj * s.sampleAt (i + 1) (j + 1)

/-- `floor((2·Bil + D) / (2·D))`: round half toward plus infinity (00_scope.md R14, R149). -/
def State.roundedIndex (s : State) (bil : Nat) : Nat := (2 * bil + s.weightSum) / (2 * s.weightSum)

/-- The gradient index of output pixel `(ox, oy)` (R149, R150). -/
def State.pixelIndex (s : State) (ox oy : Nat) : Nat :=
  s.roundedIndex (s.bil (ox / s.m) (oy / s.m) (ox % s.m) (oy % s.m))

/-- One raster pixel (R10): the four bytes of R65, alpha last. -/
structure Rgba where
  r : Byte
  g : Byte
  b : Byte
  a : Byte
  deriving DecidableEq, Repr

/-- Byte `c` of a pixel in raster order (R65). -/
def Rgba.channel (px : Rgba) : Nat → Byte
  | 0 => px.r
  | 1 => px.g
  | 2 => px.b
  | _ => px.a

/-- A LUT byte as the ENGINE reads it: whatever the RAM holds where nothing was written, a draw (R67). -/
def State.lutByte (s : State) (draw a : Nat) : Byte := (s.lut.read a).getD (Config.freeByte draw)

/-- The pixel of LUT entry `idx` (R151, R153): three channels at byte offset `3·idx`, alpha 255. -/
def State.lutEntry (s : State) (draw idx : Nat) : Rgba where
  r := s.lutByte draw (3 * idx)
  g := s.lutByte (draw + 1) (3 * idx + 1)
  b := s.lutByte (draw + 2) (3 * idx + 2)
  a := 255

/-- The result of the pixel function: a pixel, or LUT_RANGE with the offending index (R150, R152). -/
inductive PixResult where
  | pixel (px : Rgba)
  | lutRange (idx : Nat)
  deriving DecidableEq, Repr

/-- `Pix(ox, oy)` (R150). `draw` numbers the free values of LUT bytes that nothing has written. -/
def State.pix (s : State) (draw ox oy : Nat) : PixResult :=
  let idx := s.pixelIndex ox oy
  if s.tableSize ≤ idx then .lutRange idx else .pixel (s.lutEntry draw idx)

/-- The column and row of the pixel with raster index `p = oy·OUT_W + ox` (R65). -/
def State.pixelCoords (s : State) (p : Nat) : Nat × Nat := (p % s.outW, p / s.outW)

/-- The gradient indices of all output pixels in raster order. -/
def State.frameIndices (s : State) : List Nat :=
  (List.range (s.outW * s.outH)).map fun p => s.pixelIndex (s.pixelCoords p).1 (s.pixelCoords p).2

/-- `bad` of R155: the offending indices. -/
def State.badIndices (s : State) : List Nat := s.frameIndices.filter fun idx => decide (s.tableSize ≤ idx)

/-- Raster byte `a` of the frame (R65, R153): channel `a mod 4` of pixel `a div 4`. -/
def State.rasterByte (s : State) (a : Nat) : Byte :=
  let p := a / 4
  match s.pix (s.draws + 4 * p) (s.pixelCoords p).1 (s.pixelCoords p).2 with
  | .pixel px => px.channel (a % 4)
  | .lutRange _ => Config.freeByte (s.draws + a)

/-- One of the three bytes of LUT entry `idx` has never been written (R151). -/
def State.entryUnwritten (s : State) (idx : Nat) : Bool :=
  (s.lut.read (3 * idx)).isNone || (s.lut.read (3 * idx + 1)).isNone || (s.lut.read (3 * idx + 2)).isNone

/-- The frame looks up an unwritten LUT byte (R67, R151). -/
def State.readsUnwrittenLut (s : State) : Bool :=
  s.frameIndices.any fun idx => decide (idx < s.tableSize) && s.entryUnwritten idx

end Sys2Proof.Machine
end

