-- ==== Sys2Proof/Machine/Frame.lean ====
section
/-! DEFINITION. PROCESS_FRAME, the ENGINE step (42_upscale_colormap.md R155), taken as one atomic step (R50, R155). -/

namespace Sys2Proof.Machine

/-- Record UNWRITTEN_LUT_READ if the frame looks up an unwritten LUT byte (20_memory.md R67, R151, R185). -/
def recordUnwrittenLut (s : State) : State :=
  { s with unwrittenLutRead := s.unwrittenLutRead || s.readsUnwrittenLut }

/-- Write every pixel, count the frame and hand it to the HOST (R155, R47). -/
def publishFrame (s : State) : State :=
  { s with
    raster := s.raster.fill s.rasterBytes s.rasterByte
    draws := s.draws + s.rasterBytes
    frameSeq := s.frameSeq + 1
    engine := .hold }

/-- One of the offending indices; which one is open (R155, I3). -/
def pickBad (draw : Nat) (bad : List Nat) : Nat := bad.getD (Config.freeChoice draw % bad.length) 0

/-- PROCESS_FRAME (R155). Outside PROC the ENGINE takes no step (60_exceptions.md R197). -/
def execProcessFrame (s : State) : Host.Outcome State Fault Refusal :=
  if s.engine ≠ .proc then .next s
  else if s.badIndices = [] then .next (recordUnwrittenLut (publishFrame s))
  else
    .next (raiseError .lutRange (BitVec.ofNat 32 (pickBad s.draws s.badIndices))
      (recordUnwrittenLut (scrambleRaster s)))

end Sys2Proof.Machine
end

