-- ==== Sys2Proof/Machine/StreamToken.lean ====
section
/-! DEFINITION. The tokens of the SOURCE (41_frame_reader.md R130 to R138). The port accepts a token only in RUN; offered
in any other state, a token waits and changes nothing (R130). -/

namespace Sys2Proof.Machine

/-- BYTE(b) (R131): the next byte of the frame. The one that completes it starts the ENGINE (R132). -/
def execByte (b : Byte) (s : State) : Host.Outcome State Fault Refusal :=
  if s.inReady then
    .next { s with
      frameBuf := s.frameBuf.write s.inCount.toNat b
      inCount := s.inCount + 1
      engine := if (s.inCount + 1).toNat = s.frameBytes then .proc else .run }
  else .next s

/-- END (R136): the stream has ended, the partial frame is discarded. IN_COUNT keeps its length. -/
def execEndOfStream (s : State) : Host.Outcome State Fault Refusal :=
  if s.inReady then .next { s with engine := .done } else .next s

/-- A reserved token (R137): ILLEGAL_TOKEN with the 9-bit token `{1, DATA}`. -/
def execReservedToken (data : Byte) (s : State) : Host.Outcome State Fault Refusal :=
  if s.inReady then .next (raiseError .illegalToken ((tokenOf true data).setWidth 32) s) else .next s

end Sys2Proof.Machine
end

