-- ==== Sys2Proof/Machine/Dispatch.lean ====
section
/-! DEFINITION. One arm per instruction: the call of its meaning. -/

namespace Sys2Proof.Machine

def exec (i : Instr) (s : State) : Host.Outcome State Fault Refusal :=
  match i with
  | .nop => Sys2Proof.Machine.execNop s
  | .start => Sys2Proof.Machine.execStart s
  | .release => Sys2Proof.Machine.execRelease s
  | .reset => Sys2Proof.Machine.execReset s
  | .byte b => Sys2Proof.Machine.execByte b s
  | .endOfStream => Sys2Proof.Machine.execEndOfStream s
  | .reservedToken data => Sys2Proof.Machine.execReservedToken data s
  | .processFrame => Sys2Proof.Machine.execProcessFrame s

end Sys2Proof.Machine
end

