-- ==== Sys2Proof/Machine/Registers.lean ====
section
/-! DEFINITION. The register map (10_state.md R25 to R47): offsets, what a read returns, and what a write of every register
but CMD does. -/

namespace Sys2Proof.Machine

/-- The registers of R25. -/
inductive Reg where
  | id
  | cmd
  | status
  | errInfo
  | frameW
  | frameH
  | mag
  | lutSize
  | irqEn
  | frameSeq
  | inCount
  | outW
  | outH
  deriving DecidableEq, Repr

/-- The offset of a register (R25). -/
def Reg.offset : Reg → Nat
  | .id => 0x00
  | .cmd => 0x04
  | .status => 0x08
  | .errInfo => 0x0C
  | .frameW => 0x10
  | .frameH => 0x14
  | .mag => 0x18
  | .lutSize => 0x1C
  | .irqEn => 0x20
  | .frameSeq => 0x24
  | .inCount => 0x28
  | .outW => 0x2C
  | .outH => 0x30

/-- The registers in the order of R25. -/
def Reg.all : List Reg :=
  [.id, .cmd, .status, .errInfo, .frameW, .frameH, .mag, .lutSize, .irqEn, .frameSeq, .inCount, .outW, .outH]

/-- The register at an offset of the register window; the others are unmapped (R26). -/
def Reg.at (off : Nat) : Option Reg := Reg.all.find? fun r => r.offset == off

/-- ID (R27): block code 0x5942, interface version 1. -/
def idWord : Word := 0x59420001

/-- What a read of a register returns, in every state (R27 to R47). Reserved bits read as 0, CMD reads as 0 (R26, R28). -/
def readRegister (r : Reg) (s : State) : Word :=
  match r with
  | .id => idWord
  | .cmd => 0
  | .status => s.status
  | .errInfo => s.errInfo
  | .frameW => s.frameW.setWidth 32
  | .frameH => s.frameH.setWidth 32
  | .mag => s.mag.setWidth 32
  | .lutSize => s.lutSize.setWidth 32
  | .irqEn => s.irqEn.setWidth 32
  | .frameSeq => s.frameSeq
  | .inCount => s.inCount
  | .outW => BitVec.ofNat 32 s.outW
  | .outH => BitVec.ofNat 32 s.outH

/-- A write of a configuration register (R33): only in IDLE, elsewhere WRITE_ACTIVE with the bus offset. -/
def writeConfig (r : Reg) (updated s : State) : State :=
  if s.engine = .idle then updated else raiseError .writeActive (BitVec.ofNat 32 r.offset) s

/-- A write of a register that is no command: configuration (R33, R35 to R39), IRQ_EN in every state (R40, R41), and no
effect on a read-only register (R26). CMD is `writeCmd` of Bus.lean. -/
def writePlainRegister (r : Reg) (v : Word) (s : State) : State :=
  match r with
  | .frameW => writeConfig .frameW { s with frameW := v.setWidth 16 } s
  | .frameH => writeConfig .frameH { s with frameH := v.setWidth 16 } s
  | .mag => writeConfig .mag { s with mag := v.setWidth 8 } s
  | .lutSize => writeConfig .lutSize { s with lutSize := v.setWidth 17 } s
  | .irqEn => { s with irqEn := v.setWidth 3 }
  | .id => s
  | .cmd => s
  | .status => s
  | .errInfo => s
  | .frameSeq => s
  | .inCount => s
  | .outW => s
  | .outH => s

end Sys2Proof.Machine
end

