-- ==== Sys2Proof/Machine/Bus.lean ====
section
/-! DEFINITION. The HOST bus: the address map (20_memory.md R61, R62), little-endian byte lanes (R68), and the accesses
`MemRead` (R70) and `MemWrite` (R71). -/

namespace Sys2Proof.Machine

/-- The bus offset of an address (R61). Bus addresses have 32 bits, so the difference is taken modulo 2^32. -/
def State.busOffset (s : State) (addr : Word) : Word := addr - s.params.base

/-- The windows of R61. -/
inductive Window where
  /-- the register window, with the offset in it -/
  | registers (off : Nat)
  /-- the LUT window, with the LUT byte -/
  | lut (a : Nat)
  /-- the frame buffer window, with the frame buffer byte -/
  | frameBuf (a : Nat)
  /-- the raster window, with the raster byte -/
  | raster (a : Nat)
  /-- outside every window -/
  | unmapped
  deriving DecidableEq, Repr

/-- The window of a bus offset (R61). -/
def windowOf (off : Nat) : Window :=
  if off ≤ 0xFFF then .registers off
  else if 0x00100000 ≤ off ∧ off ≤ 0x001FFFFF then .lut (off - 0x00100000)
  else if 0x00200000 ≤ off ∧ off ≤ 0x002FFFFF then .frameBuf (off - 0x00200000)
  else if 0x01000000 ≤ off ∧ off ≤ 0x01FFFFFF then .raster (off - 0x01000000)
  else .unmapped

/-- The widths and alignments a memory window takes (R70 to R72). -/
def windowAccessLegal (off n : Nat) : Bool := decide ((n = 1 ∨ n = 2 ∨ n = 4) ∧ off % n = 0)

/-- The accesses the register window takes (R70 to R72). -/
def registerAccessLegal (off n : Nat) : Bool := decide (n = 4 ∧ off % 4 = 0)

/-- A raster byte that a HOST read finds open: PROC, below `4·OUT_W·OUT_H` (R78). -/
def State.rasterOpen (s : State) (a : Nat) : Bool := decide (s.engine = .proc ∧ a < s.rasterBytes)

/-- One byte as a HOST bus read finds it (R62, R67 (b), R70, R78); `draw` numbers the free value if it is open. Every byte
is classified on its own. -/
def State.busByte (s : State) (draw off : Nat) : Byte :=
  match windowOf off with
  | .registers _ => 0
  | .lut a => if a < s.lutBytes then (s.lut.read a).getD (Config.freeByte draw) else 0
  | .frameBuf a => if a < s.frameBufBytes then (s.frameBuf.read a).getD (Config.freeByte draw) else 0
  | .raster a =>
    if a < s.rasterMemBytes then
      if s.rasterOpen a then Config.freeByte draw else (s.raster.read a).getD (Config.freeByte draw)
    else 0
  | .unmapped => 0

/-- The number a read of `n` bytes carries: byte `off + q` in bits `8q + 7 .. 8q` (R68, R70). -/
def State.busBytes (s : State) (off : Nat) : Nat → Nat
  | 0 => 0
  | q + 1 => State.busBytes s off q + (s.busByte (s.draws + q) (off + q)).toNat * 2 ^ (8 * q)

/-- `MemRead(addr, n)` (R70): the data, and the state after. A legal read has no side effect; the model counts the numbers
it gave to free values. -/
def memRead (addr : Word) (n : Nat) (s : State) : Word × State :=
  let off := s.busOffset addr
  match windowOf off.toNat with
  | .registers a =>
    if registerAccessLegal a n then
      (match Reg.at a with
        | some r => readRegister r s
        | none => 0, s)
    else (0, raiseError .busAlign off s)
  | _ =>
    if windowAccessLegal off.toNat n then
      (BitVec.ofNat 32 (s.busBytes off.toNat n), { s with draws := s.draws + n })
    else (0, raiseError .busAlign off s)

/-- A write of CMD (10_state.md R28): the word is decoded first, and an illegal one raises ILLEGAL_CMD (30_encoding.md R93). -/
def writeCmd (v : Word) (s : State) : Host.Outcome State Fault Refusal :=
  match decode (.cmd v) with
  | .ok i => exec i s
  | .error _ => .next (raiseError .illegalCmd v s)

/-- The register write of R71. An unmapped offset takes no effect (R26). -/
def writeRegister (off : Nat) (v : Word) (s : State) : Host.Outcome State Fault Refusal :=
  match Reg.at off with
  | none => .next s
  | some .cmd => writeCmd v s
  | some r => .next (writePlainRegister r v s)

/-- Byte lane `q` of a bus word (R68). -/
def byteLane (v : Word) (q : Nat) : Byte := v.extractLsb' (8 * q) 8

/-- The LUT memory after the first `n` byte lanes are written from LUT byte `a` on, each byte backed or not on its own (R62,
R71). -/
def State.lutWritten (s : State) (a : Nat) (v : Word) : Nat → Memory
  | 0 => s.lut
  | q + 1 =>
    if a + q < s.lutBytes then (State.lutWritten s a v q).write (a + q) (byteLane v q)
    else State.lutWritten s a v q

/-- `MemWrite(addr, n, v)` (R71). -/
def memWrite (addr : Word) (n : Nat) (v : Word) (s : State) : Host.Outcome State Fault Refusal :=
  let off := s.busOffset addr
  match windowOf off.toNat with
  | .registers a =>
    if registerAccessLegal a n then writeRegister a v s
    else .next (raiseError .busAlign off s)
  | .lut a =>
    if windowAccessLegal off.toNat n then
      if s.engine = .idle then .next { s with lut := s.lutWritten a v n }
      else .next (raiseError .writeActive off s)
    else .next (raiseError .busAlign off s)
  | _ =>
    if windowAccessLegal off.toNat n then .next s
    else .next (raiseError .busAlign off s)

end Sys2Proof.Machine
end

