-- ==== Sys2Proof/Machine/Turns.lean ====
section
/-! DEFINITION. One turn of each agent (00_scope.md R7, R8). An agent that cannot move leaves the state as it is. -/

namespace Sys2Proof.Machine

open Sys2Proof.Config (Agent)

/-- The address of a register on the bus (R61). -/
def State.regAddr (s : State) (r : Reg) : Word := s.params.base + BitVec.ofNat 32 r.offset

/-- STATUS.STATE of a STATUS word (10_state.md R29). -/
def statusState (w : Word) : BitVec 3 := w.extractLsb' 0 3

/-- What the HOST has to do with the raster in HOLD (43_control_commands.md R172): read FRAME_SEQ and every pixel, then write
RELEASE. -/
def State.handOff (s : State) : List HostOp :=
  .read (s.regAddr .frameSeq) 4 ::
    (List.range (s.outW * s.outH)).map (fun p => .read (s.params.base + BitVec.ofNat 32 (0x01000000 + 4 * p)) 4)
    ++ [.write (s.regAddr .cmd) 4 0x00000002]

/-- The head of the frame loop of R172: it polls STATUS, or takes `irq` first. R172 allows both, and the HOST
chooses (DESIGN CHOICE, log 23). -/
def frameLoopEntry (byIrq : Bool) : List HostOp := if byIrq then [.waitIrq, .frameLoop true] else [.frameLoop false]

/-- The frame loop of R172 after a read of STATUS: hand the raster off and go on in HOLD, stop in DONE, report ERRINFO and stop
in ERROR (ERRCODE is in the STATUS word read), and wait again elsewhere. -/
def State.frameLoopNext (s : State) (byIrq : Bool) (status : Word) (rest : List HostOp) : List HostOp :=
  if statusState status = EngineState.hold.code then s.handOff ++ frameLoopEntry byIrq ++ rest
  else if statusState status = EngineState.done.code then rest
  else if statusState status = EngineState.error.code then .read (s.regAddr .errInfo) 4 :: rest
  else frameLoopEntry byIrq ++ rest

/-- Step 4 of R205 after the read of STATUS that follows START: go on in RUN; else read ERRINFO, CFG_INVALID's mask, and stop
for good (DESIGN CHOICE, log 23: R205 says what the block shows then, not what the HOST does). -/
def State.checkRunNext (s : State) (status : Word) (rest : List HostOp) : List HostOp :=
  if statusState status = EngineState.run.code then rest else [.read (s.regAddr .errInfo) 4]

/-- The HOST performs its next operation. `wait S` reads STATUS and stays until STATUS.STATE is the code of S (30_encoding.md
R101). Waiting for `irq` looks at the level once a turn, without a bus access, and stays while it is 0 (60_exceptions.md
R187; how the HOST looks at it, and that it may wait either way, is a DESIGN CHOICE, log 23). -/
def hostTurn (s : State) : Host.Outcome State Fault Refusal :=
  match s.hostOps with
  | [] => .next s
  | .read addr n :: rest =>
    let r := memRead addr n { s with hostOps := rest }
    .next { r.2 with hostLog := r.1 :: s.hostLog }
  | .write addr n v :: rest => memWrite addr n v { s with hostOps := rest }
  | .waitFor target :: rest =>
    let r := memRead (s.regAddr .status) 4 s
    .next { r.2 with
      hostLog := r.1 :: s.hostLog
      hostOps := if statusState r.1 = target.code then rest else s.hostOps }
  | .waitIrq :: rest => .next { s with hostOps := if s.irq then rest else s.hostOps }
  | .checkRun :: rest =>
    let r := memRead (s.regAddr .status) 4 s
    .next { r.2 with
      hostLog := r.1 :: s.hostLog
      hostOps := s.checkRunNext r.1 rest }
  | .frameLoop byIrq :: rest =>
    let r := memRead (s.regAddr .status) 4 s
    .next { r.2 with
      hostLog := r.1 :: s.hostLog
      hostOps := s.frameLoopNext byIrq r.1 rest }

/-- The SOURCE offers its next token: it transfers when `in_valid` and `in_ready` are 1 (30_encoding.md R95), and waits
unconsumed otherwise (41_frame_reader.md R130, 20_memory.md R86). -/
def sourceTurn (s : State) : Host.Outcome State Fault Refusal :=
  match s.stream with
  | [] => .next s
  | t :: rest => if s.inReady then exec (decodeToken t) { s with stream := rest } else .next s

/-- The ENGINE takes its step: PROCESS_FRAME in PROC (42_upscale_colormap.md R155), none elsewhere (60_exceptions.md R197). -/
def engineTurn (s : State) : Host.Outcome State Fault Refusal :=
  if s.engine = .proc then exec .processFrame s else .next s

/-- One entry of the schedule. -/
def takeTurn (t : Turn) (s : State) : Host.Outcome State Fault Refusal :=
  match t with
  | .agent .host => hostTurn s
  | .agent .source => sourceTurn s
  | .agent .engine => engineTurn s
  | .rst => .next (powerOnReset s)

/-- Whose turn it is, and the state with that choice made: the schedule's head, or a free choice where the schedule is empty
(R8; I7). -/
def nextTurn (s : State) : Turn × State :=
  match s.schedule with
  | t :: rest => (t, { s with schedule := rest })
  | [] => (.agent (Config.freeAgent s.draws), { s with draws := s.draws + 1 })

/-- Several instructions one after another, stopping at the first that does not answer a next state. -/
def execAll : List Instr → State → Host.Outcome State Fault Refusal
  | [], s => .next s
  | i :: is, s =>
    match exec i s with
    | .next t => execAll is t
    | .fault f => .fault f
    | .refused r => .refused r

/-- A CMD write as the HOST's next operation, and its turn. -/
def placeCommand (s : State) (w : Word) : State :=
  { s with
    hostOps := .write (s.regAddr .cmd) 4 w :: s.hostOps
    schedule := .agent .host :: s.schedule }

/-- A token as the SOURCE's next, its turn, and RUN, the only state in which the port accepts one (R130). -/
def placeToken (s : State) (t : Token) : State :=
  { s with
    engine := .run
    stream := t :: s.stream
    schedule := .agent .source :: s.schedule }

/-- The ENGINE's turn, and PROC, the only state in which it takes a step (R155). -/
def placeEngineStep (s : State) : State :=
  { s with
    engine := .proc
    schedule := .agent .engine :: s.schedule }

/-- The beat placed as the very next one to be taken. -/
def placeBeat (s : State) : Beat → State
  | .cmd w => placeCommand s w
  | .token t => placeToken s t
  | .engineStep => placeEngineStep s

end Sys2Proof.Machine
end

