-- ==== Sys2Proof/Machine/Step.lean ====
section
/-! DEFINITION. The step: one atomic transition of one agent (00_scope.md R8), and a word placed where the next step takes
it. -/

namespace Sys2Proof.Machine

/-- One transition of the block. -/
def step (s : State) : Host.Outcome State Fault Refusal := takeTurn (nextTurn s).1 (nextTurn s).2

/-- `s` with the opcode table word `w` of `nbits` bits as the very next beat: a CMD word as the HOST's next write, a token as
the SOURCE's next. Bits that are no beat place nothing. -/
def State.withFetchWord (s : State) (nbits w : Nat) : State :=
  match beatOfBytes (bytesOfNat (bytesFor nbits) w) with
  | .ok beat => placeBeat s beat
  | .error _ => s

end Sys2Proof.Machine
end

