-- ==== Sys2Proof/Machine/LutBuilder.lean ====
section
/-! DEFINITION. BUILD, the reference function of 40_lut_builder.md: the LUT contents from color stops, in exact rational
arithmetic. It is no operation of the block and touches no state (R110). -/

namespace Sys2Proof.Machine

/-- A color stop (R112): a color and a temperature threshold in Celsius. -/
structure ColorStop where
  r : Byte
  g : Byte
  b : Byte
  t : Rat
  deriving DecidableEq, Repr

/-- Why BUILD is undefined for its operands (R113). -/
inductive BuildRefusal where
  /-- no stop -/
  | noStops
  /-- `tableSize < 2`: the normalisation would divide by zero -/
  | tableTooSmall (tableSize : Nat)
  deriving DecidableEq, Repr

/-- `rnd(q) = floor(q + 1/2)` (00_scope.md R14). -/
def roundHalfUp (q : Rat) : Int := (q + 1 / 2).floor

/-- `frac(i) = i / (tableSize − 1)` (R114). -/
def lutFrac (tableSize i : Nat) : Rat := (i : Rat) / ((tableSize : Rat) - 1)

/-- `rawCode(i)` (R115), the literal expression on unbounded integers (90_conflicts.md C2). -/
def rawCode (tableSize i : Nat) : Nat := ((lutFrac tableSize i * 16384).floor.toNat &&& 0xFFFC) <<< 2

/-- `celsius(i)` (R116). -/
def lutCelsius (tableSize i : Nat) : Rat := (rawCode tableSize i : Rat) / 64 - 27315 / 100

/-- The segment of R117. -/
structure Segment where
  lower : Nat
  upper : Nat
  forced : Bool
  deriving DecidableEq, Repr

/-- Segment selection (R117): the first stop whose threshold exceeds `c`, strictly, is the upper end. -/
def selectSegment (stops : List ColorStop) (c : Rat) : Segment :=
  match stops.findIdx? (fun stop => decide (c < stop.t)) with
  | some k => { lower := k - 1, upper := min k (stops.length - 1), forced := false }
  | none => { lower := stops.length - 2, upper := stops.length - 1, forced := true }

/-- `clamp(v, lo, hi)` (R13). -/
def clampRat (v lo hi : Rat) : Rat := min (max v lo) hi

/-- The interpolation fraction of R118. -/
def segmentFraction (seg : Segment) (lo hi : ColorStop) (c : Rat) : Rat :=
  if seg.forced then 1
  else if seg.lower = seg.upper then 0
  else clampRat ((c - lo.t) / (hi.t - lo.t)) 0 1

/-- One channel (R120). -/
def blendChannel (lo hi : Byte) (tCol : Rat) : Byte :=
  BitVec.ofInt 8 (min (max (roundHalfUp ((lo.toNat : Rat) * (1 - tCol) + (hi.toNat : Rat) * tCol)) 0) 255)

/-- The three bytes of entry `i` (R117 to R120). -/
def lutEntryBytes (stops : List ColorStop) (tableSize i : Nat) : List Byte :=
  let c := lutCelsius tableSize i
  let seg := selectSegment stops c
  match stops[seg.lower]?, stops[seg.upper]? with
  | some lo, some hi =>
    let tCol := segmentFraction seg lo hi c
    [blendChannel lo.r hi.r tCol, blendChannel lo.g hi.g tCol, blendChannel lo.b hi.b tCol]
  | _, _ => []

/-- `BUILD(stops, tableSize)` (R113, R121): the bytes of the LUT file, in table order (20_memory.md R66). -/
def buildLut (stops : List ColorStop) (tableSize : Nat) : Except BuildRefusal (List Byte) :=
  if stops = [] then .error .noStops
  else if tableSize < 2 then .error (.tableTooSmall tableSize)
  else .ok ((List.range tableSize).flatMap (lutEntryBytes stops tableSize))

end Sys2Proof.Machine
end

