-- ==== Sys2Proof/Machine/Script.lean ====
section
/-! DEFINITION. The host script of 30_encoding.md R100, R101: its operations, their expansions, and a script placed as the
agents' pending inputs; the LUT load of 20_memory.md R66 and the whole boot sequence of 70_reset_and_hazards.md R205, down to
the frame loop of 43_control_commands.md R172. -/

namespace Sys2Proof.Machine

/-- The operations of R100, the pseudo-operations of R101, and beside them the waiting for `irq` of 43_control_commands.md
R171, the check of 70_reset_and_hazards.md R205 and the frame loop of R172. What waits is a HOST operation of its own. -/
inductive ScriptOp where
  | wr (r : Reg) (v : Word)
  | wr8 (off v : Word)
  | wr16 (off v : Word)
  | wr32 (off v : Word)
  | rd (r : Reg)
  | rd8 (off : Word)
  | rd16 (off : Word)
  | rd32 (off : Word)
  | tokByte (b : Byte)
  | tokEnd
  | tokRaw (t : Token)
  | cmdNop
  | cmdStart
  | cmdRelease
  | cmdReset
  | lut (e : Nat) (r g b : Byte)
  | send (bytes : List Byte)
  | sendle16 (samples : List (BitVec 16))
  | wait (target : EngineState)
  | waitIrq
  | checkRun
  | frameLoop (byIrq : Bool)
  deriving DecidableEq, Repr

/-- A primitive operation: a HOST operation or a token of the SOURCE. -/
inductive Primitive where
  | host (op : HostOp)
  | source (t : Token)
  deriving DecidableEq, Repr

/-- `MemWrite(BUCM_BASE + off, n, v)` as a primitive. -/
def busWrite (base off : Word) (n : Nat) (v : Word) : Primitive := .host (.write (base + off) n v)

/-- `MemRead(BUCM_BASE + off, n)` as a primitive. -/
def busRead (base off : Word) (n : Nat) : Primitive := .host (.read (base + off) n)

/-- BYTE(b) as a token (R94). -/
def byteToken (b : Byte) : Primitive := .source (tokenOf false b)

/-- The bus offset of LUT byte `a` (R61). -/
def lutOffset (a : Nat) : Word := BitVec.ofNat 32 (0x00100000 + a)

/-- The expansion of one operation into primitives (R100, R101). -/
def ScriptOp.expand (base : Word) : ScriptOp → List Primitive
  | .wr r v => [busWrite base (BitVec.ofNat 32 r.offset) 4 v]
  | .wr8 off v => [busWrite base off 1 v]
  | .wr16 off v => [busWrite base off 2 v]
  | .wr32 off v => [busWrite base off 4 v]
  | .rd r => [busRead base (BitVec.ofNat 32 r.offset) 4]
  | .rd8 off => [busRead base off 1]
  | .rd16 off => [busRead base off 2]
  | .rd32 off => [busRead base off 4]
  | .tokByte b => [byteToken b]
  | .tokEnd => [.source 0x100]
  | .tokRaw t => [.source t]
  | .cmdNop => [busWrite base 0x04 4 0x0]
  | .cmdStart => [busWrite base 0x04 4 0x1]
  | .cmdRelease => [busWrite base 0x04 4 0x2]
  | .cmdReset => [busWrite base 0x04 4 0x3]
  | .lut e r g b =>
    [busWrite base (lutOffset (3 * e)) 1 (r.setWidth 32), busWrite base (lutOffset (3 * e + 1)) 1 (g.setWidth 32),
      busWrite base (lutOffset (3 * e + 2)) 1 (b.setWidth 32)]
  | .send bytes => bytes.map byteToken
  | .sendle16 samples => samples.flatMap fun x => [byteToken (x.extractLsb' 0 8), byteToken (x.extractLsb' 8 8)]
  | .wait target => [.host (.waitFor target)]
  | .waitIrq => [.host .waitIrq]
  | .checkRun => [.host .checkRun]
  | .frameLoop byIrq => (frameLoopEntry byIrq).map .host

/-- The HOST operations of a script, in order. -/
def hostOpsOf (ps : List Primitive) : List HostOp :=
  ps.filterMap fun p => match p with
    | .host op => some op
    | .source _ => none

/-- The tokens of a script, in order. -/
def tokensOf (ps : List Primitive) : List Token :=
  ps.filterMap fun p => match p with
    | .host _ => none
    | .source t => some t

/-- The turns of the interleaving that is the order written; the ENGINE moves before each `wait` ends (95_test_vectors.md
T3). -/
def turnsOf (ps : List Primitive) : List Turn :=
  ps.flatMap fun p => match p with
    | .host (.waitFor _) => [.agent .engine, .agent .host]
    | .host .waitIrq => [.agent .engine, .agent .host]
    | .host _ => [.agent .host]
    | .source _ => [.agent .source]

/-- A script as the agents' next inputs. -/
def State.withScript (s : State) (script : List ScriptOp) : State :=
  let ps := script.flatMap (ScriptOp.expand s.params.base)
  { s with
    hostOps := hostOpsOf ps ++ s.hostOps
    stream := tokensOf ps ++ s.stream
    schedule := turnsOf ps ++ s.schedule }

/-- The LUT load of R66: file byte `k` to LUT byte `k`, one byte a write. -/
def lutLoad (file : List Byte) : List ScriptOp :=
  (List.range file.length).map fun k => .wr8 (lutOffset k) ((file.getD k 0).setWidth 32)

/-- Step 4 of the boot sequence of R205: START, and the check that STATUS shows RUN. A boot after a RESET may consist of this
step alone, since the LUT and the configuration are kept (10_state.md R53). -/
def startScript : List ScriptOp := [.cmdStart, .checkRun]

/-- Steps 1 to 4 of the boot sequence of R205, steps 1 to 3 in the order written; step 3 is optional. -/
def bootScript (file : List Byte) (width height m tableSize : Word) (enables : Option Word) : List ScriptOp :=
  lutLoad file ++
    [.wr .frameW width, .wr .frameH height, .wr .mag m, .wr .lutSize tableSize] ++
    enables.toList.map (fun v => .wr .irqEn v) ++ startScript

/-- The boot sequence of R205 as the agents' next inputs: the script of its first steps, and then step 5, in which the SOURCE
sends the bytes and END (43_control_commands.md R172) while the HOST runs the frame loop, both and the ENGINE taking their
turns in any order given. -/
def State.withBoot (s : State) (script : List ScriptOp) (bytes : List Byte) (byIrq : Bool) (order : List Turn) : State :=
  let ps := script.flatMap (ScriptOp.expand s.params.base)
  { s with
    hostOps := hostOpsOf ps ++ frameLoopEntry byIrq ++ s.hostOps
    stream := tokensOf ps ++ bytes.map (tokenOf false) ++ 0x100 :: s.stream
    schedule := turnsOf ps ++ order ++ s.schedule }

end Sys2Proof.Machine
end

