-- ==== Sys2Proof/Safety.lean ====
section
/-! DEFINITION. What holds of every state the block can reach, and what counts as a safe run, in the terms the statements
use. -/

namespace Sys2Proof.Machine

/-- The invariant of the block: what the rules promise of every state between two transitions. -/
structure State.Inv (s : State) : Prop where
  /-- the parameters are in the ranges of 00_scope.md R9 -/
  paramsLegal : s.params.wellFormed = true
  /-- the memories are in canonical form -/
  lutWf : Memory.wf s.lut
  frameBufWf : Memory.wf s.frameBuf
  rasterWf : Memory.wf s.raster
  /-- nothing lies beyond the sizes backed (20_memory.md R61) -/
  lutWithin : Memory.within s.lut s.lutBytes
  frameBufWithin : Memory.within s.frameBuf s.frameBufBytes
  rasterWithin : Memory.within s.raster s.rasterMemBytes
  /-- ERRCODE is NONE exactly outside ERROR, and ERRINFO is 0 then (10_state.md R31, R32) -/
  errorRecorded : s.engine = .error ↔ s.errCode ≠ .none
  noInfo : s.engine ≠ .error → s.errInfo = 0
  /-- IDLE is entered by a reset only, and nothing counts in it (R52, R53) -/
  idleCleared : s.engine = .idle → s.inCount = 0 ∧ s.frameSeq = 0
  /-- a run has the configuration START accepted (R34) -/
  configAccepted : s.engine = .run ∨ s.engine = .proc ∨ s.engine = .hold ∨ s.engine = .done → s.configMask = 0
  /-- IN_COUNT in RUN and DONE is below FB, in PROC and HOLD it is FB (R42) -/
  countPartial : s.engine = .run ∨ s.engine = .done → s.inCount.toNat < s.frameBytes
  countFull : s.engine = .proc ∨ s.engine = .hold → s.inCount.toNat = s.frameBytes
  /-- the bytes counted are in the frame buffer (20_memory.md R77) -/
  received : ∀ a, a < s.inCount.toNat → (s.frameBuf.read a).isSome

/-- The configuration START accepts: the legal values of 10_state.md R35, R36, R37, R39. -/
def State.startAccepts (s : State) : Prop :=
  1 ≤ s.width ∧ 1 ≤ s.height ∧ 1 ≤ s.m ∧ s.m ≤ s.params.maxMag ∧
    s.width * s.height ≤ s.params.maxFrameSamples ∧
    s.width * s.height * s.m * s.m ≤ s.params.maxRasterPixels ∧
    1 ≤ s.tableSize ∧ s.tableSize ≤ s.params.lutDepth

/-- The raster memory holds the frame that is in the frame buffer (R81, R155): every index is in the table, every pixel whose
LUT bytes have been written shows them, and alpha is 255. -/
def State.showsFrame (s : State) : Prop :=
  ∀ ox oy, ox < s.outW → oy < s.outH →
    s.pixelIndex ox oy < s.tableSize ∧
    (∀ c, c < 3 → ∀ b, s.lut.read (3 * s.pixelIndex ox oy + c) = some b →
      s.raster.read (4 * (oy * s.outW + ox) + c) = some b) ∧
    s.raster.read (4 * (oy * s.outW + ox) + 3) = some 255

/-- A HOST that sees HOLD reads the raster of the frame received (R81). -/
def State.holdShowsFrame (s : State) : Prop := s.engine = .hold → s.showsFrame

/-- The transitions of R22, and staying in a state. A reset leads to IDLE from every state, an error to ERROR. -/
def mayFollow (e e' : EngineState) : Prop :=
  e' = e ∨ e' = .idle ∨ e' = .error ∨
    (e = .idle ∧ e' = .run) ∨ (e = .run ∧ e' = .proc) ∨ (e = .run ∧ e' = .done) ∨
    (e = .proc ∧ e' = .hold) ∨ (e = .hold ∧ e' = .run)

/-- No byte of a memory is backed at a bus offset: beyond the size backed of a memory window, or outside every window
(20_memory.md R61, R62; an offset at or above 2^28: log 15). The register window has unmapped offsets of its own (10_state.md
R26). -/
def State.unmappedAt (s : State) (off : Nat) : Prop :=
  (0x00100000 + 3 * s.params.lutDepth ≤ off ∧ off ≤ 0x001FFFFF) ∨
    (0x00200000 + 2 * s.params.maxFrameSamples ≤ off ∧ off ≤ 0x002FFFFF) ∨
    (0x01000000 + 4 * s.params.maxRasterPixels ≤ off ∧ off ≤ 0x01FFFFFF) ∨
    (0x00001000 ≤ off ∧ off ≤ 0x000FFFFF) ∨ (0x00300000 ≤ off ∧ off ≤ 0x00FFFFFF) ∨ 0x02000000 ≤ off

/-- The byte `b` is backed and has been written at a bus offset in the LUT or the frame buffer window, or in the raster window
and is not one of the frame's in PROC, which R78 leaves open (20_memory.md R61, R67, R78). -/
def State.busHolds (s : State) (off : Nat) (b : Byte) : Prop :=
  (0x00100000 ≤ off ∧ off ≤ 0x001FFFFF ∧ off < 0x00100000 + 3 * s.params.lutDepth ∧
      s.lut.read (off - 0x00100000) = some b) ∨
    (0x00200000 ≤ off ∧ off ≤ 0x002FFFFF ∧ off < 0x00200000 + 2 * s.params.maxFrameSamples ∧
      s.frameBuf.read (off - 0x00200000) = some b) ∨
    (0x01000000 ≤ off ∧ off ≤ 0x01FFFFFF ∧ off < 0x01000000 + 4 * s.params.maxRasterPixels ∧
      (s.engine ≠ .proc ∨ s.rasterBytes ≤ off - 0x01000000) ∧ s.raster.read (off - 0x01000000) = some b)

/-- A state of a safe run: no error has been raised, and no unwritten LUT byte looked up (70_reset_and_hazards.md R204,
R213). -/
def State.clean (s : State) : Prop := s.errCode = .none ∧ s.unwrittenLutRead = false

end Sys2Proof.Machine
end

