-- ==== Sys2Proof/Certificates/Slice0/Obligations.lean ====
section
/-! DEFINITION. The statements for the provers, from the numbered rules of spec/. Each docstring names the rules. -/

open Sys2Proof Sys2Proof.Machine

/-! Encoding -/

/-- Decoding is the inverse of encoding, both ways, for every beat and every well-formed instruction (R91 to R94, R98). -/
def Obligations.DecodeInvertsEncode : Prop :=
  ∀ (beat : Beat) (i : Instr), decode beat = .ok i ↔ (i.wellFormed = true ∧ encode i = beat)

/-- R94: what each of the 512 tokens is. -/
def Obligations.TokensDecodeByKind : Prop :=
  ∀ t : Token,
    (t.getLsbD 8 = false → decode (.token t) = .ok (.byte (t.extractLsb' 0 8))) ∧
    (t = 0x100 → decode (.token t) = .ok .endOfStream) ∧
    (t.getLsbD 8 = true → t.extractLsb' 0 8 ≠ 0 → decode (.token t) = .ok (.reservedToken (t.extractLsb' 0 8)))

/-- R93 at the bus: a 32-bit write of CMD runs the command its word selects, and raises ILLEGAL_CMD with the word for every
other word. -/
def Obligations.CommandWritesDecode : Prop :=
  ∀ (s : State) (w : Word),
    memWrite (s.regAddr .cmd) 4 w s =
      if w = 0x00000000 then exec .nop s
      else if w = 0x00000001 then exec .start s
      else if w = 0x00000002 then exec .release s
      else if w = 0x00000003 then exec .reset s
      else .next (raiseError .illegalCmd w s)

/-- Words and tokens written out from the encoding tables decode to the instructions they stand for (R92, R94). -/
def Obligations.WrittenWordsDecode : Prop :=
  decode (.cmd 0b00000000000000000000000000000000) = .ok .nop ∧
  decode (.cmd 0b00000000000000000000000000000001) = .ok .start ∧
  decode (.cmd 0b00000000000000000000000000000010) = .ok .release ∧
  decode (.cmd 0b00000000000000000000000000000011) = .ok .reset ∧
  decode (.token 0b000010010) = .ok (.byte 0x12) ∧
  decode (.token 0b100000000) = .ok .endOfStream ∧
  decode (.token 0b100000101) = .ok (.reservedToken 0x05)

/-! The step -/

/-- A step runs the instruction decoded: a CMD write of the HOST, a token of the SOURCE in RUN, the ENGINE's own step in PROC.
The step takes the turn off the schedule, and the write or the token off its queue, and does nothing else around `exec`. A CMD
word that does not decode raises ILLEGAL_CMD; any bus write is `memWrite`, any bus read is `memRead` with its data recorded.
A HOST with nothing to do changes nothing, nor does a SOURCE that offers no token (R95), nor the ENGINE outside PROC (R197,
R201). (The schedule, the queues and the record are the model's: log 3, log 4, log 5.) -/
def Obligations.StepRunsDecodedInstruction : Prop :=
  (∀ (s : State) (w : Word) (i : Instr) (rest : List Turn) (ops : List HostOp),
    s.schedule = .agent .host :: rest → s.hostOps = .write (s.regAddr .cmd) 4 w :: ops → decode (.cmd w) = .ok i →
      step s = exec i { s with schedule := rest, hostOps := ops }) ∧
  (∀ (s : State) (w : Word) (e : DecodeError) (rest : List Turn) (ops : List HostOp),
    s.schedule = .agent .host :: rest → s.hostOps = .write (s.regAddr .cmd) 4 w :: ops → decode (.cmd w) = .error e →
      step s = .next (raiseError .illegalCmd w { s with schedule := rest, hostOps := ops })) ∧
  (∀ (s : State) (addr v : Word) (n : Nat) (rest : List Turn) (ops : List HostOp),
    s.schedule = .agent .host :: rest → s.hostOps = .write addr n v :: ops →
      step s = memWrite addr n v { s with schedule := rest, hostOps := ops }) ∧
  (∀ (s : State) (addr : Word) (n : Nat) (rest : List Turn) (ops : List HostOp),
    s.schedule = .agent .host :: rest → s.hostOps = .read addr n :: ops →
      step s = .next { (memRead addr n { s with schedule := rest, hostOps := ops }).2 with
        hostLog := (memRead addr n { s with schedule := rest, hostOps := ops }).1 :: s.hostLog }) ∧
  (∀ (s : State) (rest : List Turn), s.schedule = .agent .host :: rest → s.hostOps = [] →
    step s = .next { s with schedule := rest }) ∧
  (∀ (s : State) (t : Token) (i : Instr) (rest : List Turn) (toks : List Token),
    s.schedule = .agent .source :: rest → s.stream = t :: toks → s.engine = .run → decode (.token t) = .ok i →
      step s = exec i { s with schedule := rest, stream := toks }) ∧
  (∀ (s : State) (rest : List Turn), s.schedule = .agent .source :: rest → s.stream = [] →
    step s = .next { s with schedule := rest }) ∧
  (∀ (s : State) (i : Instr) (rest : List Turn),
    s.schedule = .agent .engine :: rest → s.engine = .proc → decode .engineStep = .ok i →
      step s = exec i { s with schedule := rest }) ∧
  (∀ (s : State) (rest : List Turn), s.schedule = .agent .engine :: rest → s.engine ≠ .proc →
    step s = .next { s with schedule := rest })

/-- Every step of every state answers a next state. This is the model's choice: it has no fault and no stop (log 21), an agent
that cannot move leaves the state as it is (log 3), and the machine goes on past the model fault (log 9). It agrees with R183
and R185, by which errors and the model fault are recorded. -/
def Obligations.StepAlwaysAnswersNext : Prop :=
  ∀ s : State, ∃ t, step s = .next t

/-- R130: the port accepts a token in RUN only. In every other state the token waits, unconsumed. -/
def Obligations.TokensWaitOutsideRun : Prop :=
  (∀ s : State, s.inReady = true ↔ s.engine = .run) ∧
  (∀ (s : State) (rest : List Turn), s.engine ≠ .run → s.schedule = .agent .source :: rest →
    step s = .next { s with schedule := rest }) ∧
  (∀ (s : State) (tok : Token) (toks : List Token) (rest : List Turn), s.engine = .run →
    s.schedule = .agent .source :: rest → s.stream = tok :: toks → ∃ t, step s = .next t ∧ t.stream = toks)

/-- R86: a step leaves the stream as it is, or it is the SOURCE's turn in RUN, takes the first token off and runs it: no token
is lost, duplicated or reordered. -/
def Obligations.StreamKeepsOrder : Prop :=
  ∀ s t : State, step s = .next t →
    t.stream = s.stream ∨
      ((nextTurn s).1 = .agent .source ∧ s.engine = .run ∧ ∃ tok, s.stream = tok :: t.stream ∧
        exec (decodeToken tok) { (nextTurn s).2 with stream := t.stream } = .next t)

/-! Commands -/

/-- R165: NOP is the CMD word 0, and has no effect, in every state. -/
def Obligations.NopRule : Prop :=
  decode (.cmd 0x00000000) = .ok .nop ∧ ∀ s : State, exec .nop s = .next s

/-- R166: START, the CMD word 1. Outside IDLE it raises CMD_STATE (kept out in ERROR by R183); in IDLE it enters RUN if every check passes, and
else raises CFG_INVALID with one bit per failed check. -/
def Obligations.StartRule : Prop :=
  decode (.cmd 0x00000001) = .ok .start ∧
  (∀ s : State, s.engine = .error → exec .start s = .next s) ∧
  (∀ s : State, s.engine ≠ .error → s.engine ≠ .idle →
    exec .start s = .next { s with
      errCode := .cmdState, errInfo := 0#21 ++ s.engine.code ++ 0x01#8, engine := .error }) ∧
  (∀ s : State, s.engine = .idle → s.startAccepts →
    exec .start s = .next { s with inCount := 0, frameSeq := 0, engine := .run }) ∧
  (∀ s : State, s.engine = .idle → ¬ s.startAccepts →
    ∃ info : Word,
      exec .start s = .next { s with errCode := .cfgInvalid, errInfo := info, engine := .error } ∧
      ∀ k : Nat, info.getLsbD k = true ↔
        (k = 0 ∧ s.width = 0) ∨ (k = 1 ∧ s.height = 0) ∨ (k = 2 ∧ s.m = 0) ∨ (k = 3 ∧ s.m > s.params.maxMag) ∨
        (k = 4 ∧ s.width * s.height > s.params.maxFrameSamples) ∨
        (k = 5 ∧ s.width * s.height * s.m * s.m > s.params.maxRasterPixels) ∨
        (k = 6 ∧ s.tableSize = 0) ∨ (k = 7 ∧ s.tableSize > s.params.lutDepth))

/-- R167: RELEASE, the CMD word 2. In HOLD it enters RUN with IN_COUNT 0 and the raster unchanged; elsewhere it raises CMD_STATE (kept out in
ERROR by R183). -/
def Obligations.ReleaseRule : Prop :=
  decode (.cmd 0x00000002) = .ok .release ∧
  (∀ s : State, s.engine = .hold → exec .release s = .next { s with inCount := 0, engine := .run }) ∧
  (∀ s : State, s.engine ≠ .hold → s.engine ≠ .error →
    exec .release s = .next { s with
      errCode := .cmdState, errInfo := 0#21 ++ s.engine.code ++ 0x02#8, engine := .error }) ∧
  (∀ s : State, s.engine = .error → exec .release s = .next s)

/-- R168, R53: RESET, the CMD word 3, legal in every state. STATUS reads 0 after it. Taken in PROC it leaves the raster bytes below
`4·OUT_W·OUT_H` with some value each, and the others alone; elsewhere it leaves the raster alone. -/
def Obligations.ResetRule : Prop :=
  decode (.cmd 0x00000003) = .ok .reset ∧
  ∀ s : State, ∃ t, exec .reset s = .next t ∧
    t = { s with
      engine := .idle, errCode := .none, errInfo := 0, frameSeq := 0, inCount := 0,
      raster := t.raster, draws := t.draws } ∧
    t.status = 0 ∧
    (s.engine ≠ .proc → t.raster = s.raster ∧ t.draws = s.draws) ∧
    (s.engine = .proc → ∀ a,
      (a < s.rasterBytes → (t.raster.read a).isSome) ∧ (s.rasterBytes ≤ a → t.raster.read a = s.raster.read a))

/-- Raising an error records the code and the information word and enters ERROR; in ERROR it has no effect (R183). There the
port accepts no token (R130), every instruction but RESET changes nothing (R169, R197), and so does every bus write, of any
width and at any address, but that of the RESET word to CMD and that of IRQ_EN (R41). (That a token's meaning and that of
PROCESS_FRAME answer the unchanged state there is the model's reading: log 7.) -/
def Obligations.FirstErrorIsKept : Prop :=
  (∀ (c : ErrorCode) (info : Word) (s : State), s.engine ≠ .error →
    raiseError c info s = { s with errCode := c, errInfo := info, engine := .error }) ∧
  (∀ (c : ErrorCode) (info : Word) (s : State), s.engine = .error → raiseError c info s = s) ∧
  (∀ s : State, s.engine = .error → s.inReady = false) ∧
  (∀ (i : Instr) (s : State), s.engine = .error → i ≠ .reset → exec i s = .next s) ∧
  (∀ (s : State) (addr v : Word) (n : Nat), s.engine = .error →
    ¬ (addr = s.regAddr .cmd ∧ v = 0x00000003) → addr ≠ s.regAddr .irqEn → memWrite addr n v s = .next s)

/-! Tokens -/

/-- R131: BYTE, a token with KIND 0, in RUN stores the byte at IN_COUNT, counts it, and enters PROC when the frame is complete. Nothing else
changes. -/
def Obligations.ByteRule : Prop :=
  ∀ (s : State) (b : Byte), decode (.token (tokenOf false b)) = .ok (.byte b) ∧ (s.engine = .run →
    ∃ t, exec (.byte b) s = .next t ∧
      t = { s with frameBuf := t.frameBuf, inCount := s.inCount + 1, engine := t.engine } ∧
      (∀ a, t.frameBuf.read a = if a = s.inCount.toNat then some b else s.frameBuf.read a) ∧
      t.engine = if (s.inCount + 1).toNat = 2 * s.width * s.height then .proc else .run)

/-- R136: END, the token 0x100, in RUN enters DONE; IN_COUNT keeps the number of bytes discarded, and nothing else changes. -/
def Obligations.EndRule : Prop :=
  decode (.token 0x100) = .ok .endOfStream ∧ ∀ s : State, s.engine = .run → exec .endOfStream s = .next { s with engine := .done }

/-- R137: a reserved token, KIND 1 with DATA other than 0, in RUN raises ILLEGAL_TOKEN with the 9-bit token, and changes nothing else. -/
def Obligations.ReservedTokenRule : Prop :=
  (∀ data : Byte, data ≠ 0 → decode (.token (tokenOf true data)) = .ok (.reservedToken data)) ∧
  ∀ (s : State) (data : Byte), s.engine = .run →
    exec (.reservedToken data) s = .next { s with
      errCode := .illegalToken, errInfo := BitVec.ofNat 32 (256 + data.toNat), engine := .error }

/-! PROCESS_FRAME -/

/-- R155 without an offending index: the raster shows the frame, FRAME_SEQ counts it, the ENGINE enters HOLD. Bytes beyond the
frame's raster, and everything else but the model's fault flag and draw counter, are unchanged. -/
def Obligations.ProcessFramePublishes : Prop :=
  ∀ s : State, s.engine = .proc →
    (∀ ox oy, ox < s.outW → oy < s.outH → s.pixelIndex ox oy < s.tableSize) →
    ∃ t, exec .processFrame s = .next t ∧
      t = { s with
        raster := t.raster, frameSeq := s.frameSeq + 1, engine := .hold,
        draws := t.draws, unwrittenLutRead := t.unwrittenLutRead } ∧
      t.showsFrame ∧
      (∀ a, a < s.rasterBytes → (t.raster.read a).isSome) ∧
      (∀ a, s.rasterBytes ≤ a → t.raster.read a = s.raster.read a)

/-- R155 with an offending index: LUT_RANGE with one of the offending indices; the frame's raster bytes have some value each,
the others are unchanged, and so is everything else but the model's fault flag and draw counter. -/
def Obligations.ProcessFrameLutRange : Prop :=
  ∀ (s : State) (ox oy : Nat), s.engine = .proc → ox < s.outW → oy < s.outH → s.tableSize ≤ s.pixelIndex ox oy →
    ∃ t ex ey, exec .processFrame s = .next t ∧
      ex < s.outW ∧ ey < s.outH ∧ s.tableSize ≤ s.pixelIndex ex ey ∧ t.errInfo.toNat = s.pixelIndex ex ey ∧
      t = { s with
        raster := t.raster, errCode := .lutRange, errInfo := t.errInfo, engine := .error,
        draws := t.draws, unwrittenLutRead := t.unwrittenLutRead } ∧
      (∀ a, a < s.rasterBytes → (t.raster.read a).isSome) ∧
      (∀ a, s.rasterBytes ≤ a → t.raster.read a = s.raster.read a)

/-- R67 (a), R151: PROCESS_FRAME records UNWRITTEN_LUT_READ exactly when a pixel in range looks up a LUT byte that nothing has
written. (That it is recorded when another pixel raises LUT_RANGE as well is the model's choice: log 9.) -/
def Obligations.UnwrittenLutReadRecorded : Prop :=
  ∀ s t : State, s.engine = .proc → exec .processFrame s = .next t →
    (t.unwrittenLutRead = true ↔ s.unwrittenLutRead = true ∨
      ∃ ox oy c, ox < s.outW ∧ oy < s.outH ∧ s.pixelIndex ox oy < s.tableSize ∧ c < 3 ∧
        s.lut.read (3 * s.pixelIndex ox oy + c) = none)

/-! Frames -/

/-- What the instructions leave of the memories: no instruction writes the LUT; BYTE in RUN writes one frame buffer byte, at
IN_COUNT; PROCESS_FRAME and RESET in PROC write the frame's raster bytes; nothing else is written. -/
def Obligations.InstructionMemoryFrame : Prop :=
  ∀ (i : Instr) (s t : State), exec i s = .next t → ∀ a,
    t.lut.read a = s.lut.read a ∧
    (¬ ((∃ b, i = .byte b) ∧ s.engine = .run ∧ a = s.inCount.toNat) → t.frameBuf.read a = s.frameBuf.read a) ∧
    (¬ ((i = .processFrame ∨ i = .reset) ∧ s.engine = .proc ∧ a < s.rasterBytes) → t.raster.read a = s.raster.read a)

/-- What the instructions leave of the registers: no instruction writes FRAME_W, FRAME_H, MAG, LUT_SIZE or IRQ_EN, nor the
inputs pending; IN_COUNT is written by START, RELEASE, RESET and BYTE only, FRAME_SEQ by START, RESET and PROCESS_FRAME only,
ERRCODE and ERRINFO by RESET and on entering ERROR only. -/
def Obligations.InstructionRegisterFrame : Prop :=
  ∀ (i : Instr) (s t : State), exec i s = .next t →
    t.params = s.params ∧ t.frameW = s.frameW ∧ t.frameH = s.frameH ∧ t.mag = s.mag ∧ t.lutSize = s.lutSize ∧
    t.irqEn = s.irqEn ∧ t.schedule = s.schedule ∧ t.hostOps = s.hostOps ∧ t.stream = s.stream ∧ t.hostLog = s.hostLog ∧
    (i ≠ .start → i ≠ .release → i ≠ .reset → (∀ b, i ≠ .byte b) → t.inCount = s.inCount) ∧
    (i ≠ .start → i ≠ .reset → i ≠ .processFrame → t.frameSeq = s.frameSeq) ∧
    (i ≠ .reset → ¬ (s.engine ≠ .error ∧ t.engine = .error) → t.errCode = s.errCode ∧ t.errInfo = s.errInfo) ∧
    (i ≠ .processFrame → t.unwrittenLutRead = s.unwrittenLutRead)

/-! The whole machine -/

/-- The state after reset meets the invariant of the block, and shows no frame it does not hold. -/
def Obligations.ResetStateMeetsInvariant : Prop :=
  State.reset.Inv ∧ State.reset.holdShowsFrame

/-- Every step keeps the invariant of the block (R9, R31, R32, R34, R42, R52, R53, R77). -/
def Obligations.StepKeepsInvariant : Prop :=
  ∀ s t : State, s.Inv → step s = .next t → t.Inv

/-- Every step keeps that a HOST that sees HOLD reads the raster of the frame received (R81). -/
def Obligations.StepKeepsHoldShowsFrame : Prop :=
  ∀ s t : State, s.holdShowsFrame → step s = .next t → t.holdShowsFrame

/-- R22: the ENGINE state changes only along the transitions the rules name. -/
def Obligations.StepFollowsStateDiagram : Prop :=
  ∀ s t : State, step s = .next t → mayFollow s.engine t.engine

/-- R34, R79: outside IDLE, and but for the reset input, no step changes the configuration or any LUT byte. -/
def Obligations.ConfigurationAndLutConstantDuringRun : Prop :=
  ∀ s t : State, s.engine ≠ .idle → s.schedule.head? ≠ some .rst → step s = .next t →
    t.frameW = s.frameW ∧ t.frameH = s.frameH ∧ t.mag = s.mag ∧ t.lutSize = s.lutSize ∧ t.params = s.params ∧
    ∀ a, t.lut.read a = s.lut.read a

/-- R81: outside PROC, and but for the reset input, no step changes a raster byte. -/
def Obligations.RasterWrittenOnlyInProc : Prop :=
  ∀ s t : State, s.engine ≠ .proc → s.schedule.head? ≠ some .rst → step s = .next t →
    ∀ a, t.raster.read a = s.raster.read a

/-- R182, R186, R213: once in ERROR, a step keeps the first error and every progress register, or it is the reset input or the
HOST's write of RESET to CMD, and leads to IDLE with no error recorded. -/
def Obligations.ErrorLeftOnlyByReset : Prop :=
  ∀ s t : State, s.engine = .error → step s = .next t →
    (t.engine = .error ∧ t.errCode = s.errCode ∧ t.errInfo = s.errInfo ∧ t.inCount = s.inCount ∧
      t.frameSeq = s.frameSeq ∧ t.stream = s.stream) ∨
    (((nextTurn s).1 = .rst ∨
        ((nextTurn s).1 = .agent .host ∧ ∃ ops, s.hostOps = .write (s.regAddr .cmd) 4 0x00000003 :: ops)) ∧
      t.engine = .idle ∧ t.errCode = .none ∧ t.errInfo = 0)

/-- R185: a recorded model fault is never cleared, by no step, not even by a reset. -/
def Obligations.ModelFaultNeverCleared : Prop :=
  ∀ s t : State, s.unwrittenLutRead = true → step s = .next t → t.unwrittenLutRead = true

/-- R47: FRAME_SEQ goes up by one, modulo 2^32, exactly when PROC leads to HOLD, and else stays or is cleared on the way to
IDLE or RUN. -/
def Obligations.FrameSeqCountsFrames : Prop :=
  ∀ s t : State, step s = .next t →
    (s.engine = .proc → t.engine = .hold → t.frameSeq = s.frameSeq + 1) ∧
    (¬ (s.engine = .proc ∧ t.engine = .hold) →
      t.frameSeq = s.frameSeq ∨ (t.frameSeq = 0 ∧ (t.engine = .idle ∨ (s.engine = .idle ∧ t.engine = .run))))

/-! The datapath -/

/-- R149: the index is the exact quotient `Bil/D` rounded half up, which is `floor((2·Bil + D)/(2·D))`, and a 16-bit number;
a tie occurs only where `D` is even. -/
def Obligations.IndexRoundsHalfUp : Prop :=
  ∀ (s : State) (ox oy b : Nat), 1 ≤ s.m → b = s.bil (ox / s.m) (oy / s.m) (ox % s.m) (oy % s.m) →
    (s.pixelIndex ox oy : Int) = roundHalfUp ((b : Rat) / (s.weightSum : Rat)) ∧
    s.pixelIndex ox oy = (2 * b + s.weightSum) / (2 * s.weightSum) ∧
    s.pixelIndex ox oy ≤ 65535 ∧
    ((2 * b + s.weightSum) % (2 * s.weightSum) = 0 → s.weightSum % 2 = 0)

/-- R148: `Bil/D` is the source's weighted mean of the four samples, with `u = ri/m'` and `v = rj/m'`, and lies in
`[0, 65535]`. -/
def Obligations.BilIsWeightedMean : Prop :=
  ∀ (s : State) (i j ri rj : Nat), ri < s.m → rj < s.m →
    ((s.bil i j ri rj : Rat) / (s.weightSum : Rat) =
      (1 - (ri : Rat) / s.subDivisor) * (1 - (rj : Rat) / s.subDivisor) * s.sampleAt i j
        + (ri : Rat) / s.subDivisor * (1 - (rj : Rat) / s.subDivisor) * s.sampleAt (i + 1) j
        + (1 - (ri : Rat) / s.subDivisor) * ((rj : Rat) / s.subDivisor) * s.sampleAt i (j + 1)
        + (ri : Rat) / s.subDivisor * ((rj : Rat) / s.subDivisor) * s.sampleAt (i + 1) (j + 1)) ∧
    0 ≤ (s.bil i j ri rj : Rat) / (s.weightSum : Rat) ∧ (s.bil i j ri rj : Rat) / (s.weightSum : Rat) ≤ 65535

/-- The index of a pixel lies between the least and the greatest of the four samples it blends (R147 to R149). -/
def Obligations.IndexBetweenSamples : Prop :=
  ∀ (s : State) (ox oy lo hi : Nat), 1 ≤ s.m →
    (∀ dx dy, dx ≤ 1 → dy ≤ 1 → lo ≤ s.sampleAt (ox / s.m + dx) (oy / s.m + dy)) →
    (∀ dx dy, dx ≤ 1 → dy ≤ 1 → s.sampleAt (ox / s.m + dx) (oy / s.m + dy) ≤ hi) →
    lo ≤ s.pixelIndex ox oy ∧ s.pixelIndex ox oy ≤ hi

/-- R157: at `m = 1` the divisors are 1, nothing is blended, the index is the raw sample, and the pixel is that entry of the LUT. -/
def Obligations.MagOneIsIdentity : Prop :=
  ∀ (s : State) (draw ox oy : Nat), s.m = 1 → ox < s.outW → oy < s.outH →
    s.subDivisor = 1 ∧ s.weightSum = 1 ∧ ox % s.m = 0 ∧ oy % s.m = 0 ∧ s.bil ox oy 0 0 = s.sampleAt ox oy ∧
    s.pixelIndex ox oy = (s.sample (oy * s.width + ox)).toNat ∧
    ((s.sample (oy * s.width + ox)).toNat < s.tableSize →
      s.pix draw ox oy = .pixel (s.lutEntry draw (s.sample (oy * s.width + ox)).toNat))

/-- R158: at `m = 2` the divisor is 1, and output column `2i` takes source column `i`, column `2i + 1` takes column `min(i + 1, width − 1)`, and
rows likewise: nothing is blended. -/
def Obligations.MagTwoDoesNotBlend : Prop :=
  ∀ (s : State) (i j : Nat) (odd odd' : Bool), s.m = 2 → i < s.width → j < s.height →
    s.subDivisor = 1 ∧
    s.pixelIndex (2 * i + odd.toNat) (2 * j + odd'.toNat) =
      (s.sample ((if odd' then min (j + 1) (s.height - 1) else j) * s.width
        + (if odd then min (i + 1) (s.width - 1) else i))).toNat

/-- R159: for `m ≥ 2`, the last output column of a source column equals the first of the next, the output columns of the last
source column are equal, and rows likewise. -/
def Obligations.DuplicatedColumnsAndRows : Prop :=
  ∀ (s : State), 2 ≤ s.m →
    (∀ i oy, i + 1 < s.width → s.pixelIndex (i * s.m + (s.m - 1)) oy = s.pixelIndex ((i + 1) * s.m) oy) ∧
    (∀ j ox, j + 1 < s.height → s.pixelIndex ox (j * s.m + (s.m - 1)) = s.pixelIndex ox ((j + 1) * s.m)) ∧
    (∀ ri oy, ri < s.m → s.pixelIndex ((s.width - 1) * s.m + ri) oy = s.pixelIndex ((s.width - 1) * s.m) oy) ∧
    (∀ rj ox, rj < s.m → s.pixelIndex ox ((s.height - 1) * s.m + rj) = s.pixelIndex ox ((s.height - 1) * s.m))

/-- R160: a frame whose every sample is `v` gives `Bil = v·D` and the index `v` at every pixel, which is the LUT entry `v` if
the table has it. -/
def Obligations.SolidFrameIsSolid : Prop :=
  ∀ (s : State) (v ox oy : Nat), (∀ k, k < s.width * s.height → (s.sample k).toNat = v) →
    ox < s.outW → oy < s.outH →
    s.bil (ox / s.m) (oy / s.m) (ox % s.m) (oy % s.m) = v * s.weightSum ∧ s.pixelIndex ox oy = v ∧
    (v < s.tableSize → ∀ draw, s.pix draw ox oy = .pixel (s.lutEntry draw v))

/-- R161: a read one step past the last column or row equals the read at the last one. -/
def Obligations.EdgeClampEquivalence : Prop :=
  ∀ (s : State) (x y : Nat),
    s.sampleAt s.width y = s.sampleAt (s.width - 1) y ∧ s.sampleAt x s.height = s.sampleAt x (s.height - 1)

/-- R150, R65: `(i, ri) ↦ i·m + ri` runs once through the output columns, and the index of a pixel is that of its cell and
offset; `pixelCoords` is the inverse of the raster index `oy·OUT_W + ox`; `frameIndices`, which PROCESS_FRAME goes through, has
the index of each pixel at its raster index and nothing else; and the bytes of a pixel stand at four times its raster index. -/
def Obligations.EveryPixelVisitedOnce : Prop :=
  ∀ s : State,
    (∀ ox, ox < s.outW → ∃ i ri, (i < s.width ∧ ri < s.m ∧ i * s.m + ri = ox) ∧
      ∀ i' ri', ri' < s.m → i' * s.m + ri' = ox → i' = i ∧ ri' = ri) ∧
    (∀ i ri j rj, ri < s.m → rj < s.m →
      s.pixelIndex (i * s.m + ri) (j * s.m + rj) = s.roundedIndex (s.bil i j ri rj)) ∧
    (∀ ox oy, ox < s.outW → s.pixelCoords (oy * s.outW + ox) = (ox, oy)) ∧
    (∀ p, p < s.outW * s.outH → (s.pixelCoords p).1 < s.outW ∧ (s.pixelCoords p).2 < s.outH ∧
      (s.pixelCoords p).2 * s.outW + (s.pixelCoords p).1 = p) ∧
    s.frameIndices.length = s.outW * s.outH ∧
    (∀ ox oy, ox < s.outW → oy < s.outH → s.frameIndices[oy * s.outW + ox]? = some (s.pixelIndex ox oy)) ∧
    (∀ ox oy c, ox < s.outW → oy < s.outH → c < 4 → s.pixelIndex ox oy < s.tableSize →
      s.rasterByte (4 * (oy * s.outW + ox) + c) =
        (s.lutEntry (s.draws + 4 * (oy * s.outW + ox)) (s.pixelIndex ox oy)).channel c)

/-! Registers and the bus -/

/-- Every register reads in every state as its rule says, and no register read changes the state (R27, R28, R35 to R45). -/
def Obligations.RegisterReads : Prop :=
  ∀ s : State,
    memRead (s.regAddr .id) 4 s = (0x59420001, s) ∧
    memRead (s.regAddr .cmd) 4 s = (0, s) ∧
    memRead (s.regAddr .status) 4 s = (s.status, s) ∧
    memRead (s.regAddr .errInfo) 4 s = (s.errInfo, s) ∧
    memRead (s.regAddr .frameW) 4 s = (BitVec.ofNat 32 s.width, s) ∧
    memRead (s.regAddr .frameH) 4 s = (BitVec.ofNat 32 s.height, s) ∧
    memRead (s.regAddr .mag) 4 s = (BitVec.ofNat 32 s.m, s) ∧
    memRead (s.regAddr .lutSize) 4 s = (BitVec.ofNat 32 s.tableSize, s) ∧
    memRead (s.regAddr .irqEn) 4 s = (BitVec.ofNat 32 s.irqEn.toNat, s) ∧
    memRead (s.regAddr .frameSeq) 4 s = (s.frameSeq, s) ∧
    memRead (s.regAddr .inCount) 4 s = (s.inCount, s) ∧
    (memRead (s.regAddr .outW) 4 s).1.toNat = s.width * s.m ∧ (memRead (s.regAddr .outW) 4 s).2 = s ∧
    (memRead (s.regAddr .outH) 4 s).1.toNat = s.height * s.m ∧ (memRead (s.regAddr .outH) 4 s).2 = s ∧
    s.width * s.m < 2 ^ 24 ∧ s.height * s.m < 2 ^ 24

/-- R29: every field of STATUS, with the codes of the states (R21) and of the errors (R180), and that reading it changes
nothing. -/
def Obligations.StatusFields : Prop :=
  ∀ s : State,
    s.status.extractLsb' 0 3 = s.engine.code ∧
    (s.status.getLsbD 3 = true ↔ s.engine = .hold) ∧
    (s.status.getLsbD 4 = true ↔ s.engine = .done) ∧
    (s.status.getLsbD 5 = true ↔ s.engine = .error) ∧
    (s.status.getLsbD 6 = true ↔ s.engine = .proc) ∧
    s.status.getLsbD 7 = s.irq ∧
    s.status.extractLsb' 8 4 = s.errCode.code ∧
    s.status.extractLsb' 12 20 = 0 ∧
    memRead (s.regAddr .status) 4 s = (s.status, s) ∧
    s.engine.code = (match s.engine with
      | .idle => 0
      | .run => 1
      | .proc => 2
      | .hold => 3
      | .done => 4
      | .error => 5) ∧
    s.errCode.code = (match s.errCode with
      | .none => 0
      | .illegalCmd => 1
      | .cmdState => 2
      | .cfgInvalid => 3
      | .writeActive => 4
      | .busAlign => 5
      | .lutRange => 6
      | .illegalToken => 7)

/-- R187: the interrupt level; it is 0 after either reset, and STATUS.IRQ reads it. -/
def Obligations.IrqLevel : Prop :=
  ∀ s : State,
    (s.irq = true ↔
      (s.irqEn.getLsbD 0 = true ∧ s.engine = .hold) ∨ (s.irqEn.getLsbD 1 = true ∧ s.engine = .done) ∨
      (s.irqEn.getLsbD 2 = true ∧ s.engine = .error)) ∧
    s.status.getLsbD 7 = s.irq ∧ (softReset s).irq = false ∧ (powerOnReset s).irq = false

/-- R26: a write of a read-only register has no effect; an unmapped offset of the register window reads 0 and takes no
write. -/
def Obligations.ReadOnlyAndUnmappedRegisters : Prop :=
  (∀ (s : State) (v : Word) (r : Reg), r ∈ [Reg.id, .status, .errInfo, .frameSeq, .inCount, .outW, .outH] →
    memWrite (s.regAddr r) 4 v s = .next s) ∧
  (∀ (s : State) (v : Word) (off : Nat), 0x34 ≤ off → off ≤ 0xFFC → off % 4 = 0 →
    memRead (s.params.base + BitVec.ofNat 32 off) 4 s = (0, s) ∧
    memWrite (s.params.base + BitVec.ofNat 32 off) 4 v s = .next s)

/-- R33: a configuration write stores the field bits in IDLE, and raises WRITE_ACTIVE with the bus offset elsewhere (without
effect in ERROR, by R183). -/
def Obligations.ConfigurationWrites : Prop :=
  (∀ (s : State) (v : Word), s.engine = .idle →
    memWrite (s.regAddr .frameW) 4 v s = .next { s with frameW := v.extractLsb' 0 16 } ∧
    memWrite (s.regAddr .frameH) 4 v s = .next { s with frameH := v.extractLsb' 0 16 } ∧
    memWrite (s.regAddr .mag) 4 v s = .next { s with mag := v.extractLsb' 0 8 } ∧
    memWrite (s.regAddr .lutSize) 4 v s = .next { s with lutSize := v.extractLsb' 0 17 }) ∧
  (∀ (s : State) (v : Word) (r : Reg), r ∈ [Reg.frameW, .frameH, .mag, .lutSize] → s.engine ≠ .idle →
    memWrite (s.regAddr r) 4 v s = .next (raiseError .writeActive (BitVec.ofNat 32 r.offset) s))

/-- R40, R41: IRQ_EN is written in every state, never with an error, and the level follows at once. -/
def Obligations.IrqEnableWrites : Prop :=
  ∀ (s : State) (v : Word), ∃ t, memWrite (s.regAddr .irqEn) 4 v s = .next t ∧
    t = { s with irqEn := v.extractLsb' 0 3 } ∧
    (t.irq = true ↔
      (v.getLsbD 0 = true ∧ s.engine = .hold) ∨ (v.getLsbD 1 = true ∧ s.engine = .done) ∨
      (v.getLsbD 2 = true ∧ s.engine = .error))

/-- R70, R71: an access of a width or alignment its window does not take raises BUS_ALIGN with the bus offset, before anything
else; a read returns 0. (That an address outside the 2^28 bytes of R61 has an offset modulo 2^32, checked alike, is the
model's reading: log 15.) -/
def Obligations.IllegalAccessRaisesBusAlign : Prop :=
  ∀ (s : State) (addr v : Word) (n : Nat),
    ((s.busOffset addr).toNat ≤ 0xFFF ∧ (n ≠ 4 ∨ (s.busOffset addr).toNat % 4 ≠ 0)) ∨
      (0xFFF < (s.busOffset addr).toNat ∧
        (¬ (n = 1 ∨ n = 2 ∨ n = 4) ∨ (s.busOffset addr).toNat % n ≠ 0)) →
    memRead addr n s = (0, raiseError .busAlign (s.busOffset addr) s) ∧
    memWrite addr n v s = .next (raiseError .busAlign (s.busOffset addr) s)

/-- R62, R68, R71: in IDLE a legal write in the LUT window stores its byte lanes in little-endian order at the bytes backed, and
no other LUT byte changes; a read of the same bytes returns the lanes backed and 0 elsewhere, and the low bytes written if all
are backed. Outside IDLE such a write raises WRITE_ACTIVE with the bus offset. -/
def Obligations.LutWindowWrites : Prop :=
  (∀ (s : State) (a n : Nat) (v : Word), s.params.wellFormed = true → s.engine = .idle →
    n = 1 ∨ n = 2 ∨ n = 4 → a % n = 0 → a ≤ 0xFFFFF →
    ∃ t, memWrite (s.params.base + BitVec.ofNat 32 (0x00100000 + a)) n v s = .next t ∧
      t = { s with lut := t.lut } ∧
      (∀ q, q < n → a + q < 3 * s.params.lutDepth → t.lut.read (a + q) = some (v.extractLsb' (8 * q) 8)) ∧
      (∀ x, x < a ∨ a + n ≤ x ∨ 3 * s.params.lutDepth ≤ x → t.lut.read x = s.lut.read x) ∧
      (∀ q, q < 4 →
        (memRead (s.params.base + BitVec.ofNat 32 (0x00100000 + a)) n t).1.extractLsb' (8 * q) 8 =
          if q < n ∧ a + q < 3 * s.params.lutDepth then v.extractLsb' (8 * q) 8 else 0) ∧
      (a + n ≤ 3 * s.params.lutDepth →
        (memRead (s.params.base + BitVec.ofNat 32 (0x00100000 + a)) n t).1.toNat = v.toNat % 2 ^ (8 * n))) ∧
  (∀ (s : State) (addr v : Word) (n : Nat), s.engine ≠ .idle → n = 1 ∨ n = 2 ∨ n = 4 →
    0x00100000 ≤ (s.busOffset addr).toNat → (s.busOffset addr).toNat ≤ 0x001FFFFF →
    (s.busOffset addr).toNat % n = 0 →
    memWrite addr n v s = .next (raiseError .writeActive (s.busOffset addr) s))

/-- R62, R70, R71: in every state an unmapped byte reads 0, in its own lane of a legal bus read, and a legal bus read of unmapped
bytes alone returns 0 with no error; a legal write to the frame buffer window, the raster window or unmapped offsets has no
effect; a write in the LUT window changes no byte beyond the size backed. (Offsets at or above 2^28 are unmapped by the model's
reading: log 15. The draw counter is the model's: log 10.) -/
def Obligations.UnmappedBytesAndReadOnlyWindows : Prop :=
  (∀ (s : State) (draw off : Nat), s.unmappedAt off → s.busByte draw off = 0) ∧
  (∀ (s : State) (addr : Word) (n : Nat), n = 1 ∨ n = 2 ∨ n = 4 → (s.busOffset addr).toNat % n = 0 →
    0xFFF < (s.busOffset addr).toNat →
    (∀ q, q < n → s.unmappedAt ((s.busOffset addr).toNat + q) → (memRead addr n s).1.extractLsb' (8 * q) 8 = 0) ∧
    ((∀ q, q < n → s.unmappedAt ((s.busOffset addr).toNat + q)) →
      memRead addr n s = (0, { s with draws := (memRead addr n s).2.draws }))) ∧
  (∀ (s : State) (addr v : Word) (n : Nat), n = 1 ∨ n = 2 ∨ n = 4 → (s.busOffset addr).toNat % n = 0 →
    0xFFF < (s.busOffset addr).toNat →
    ¬ (0x00100000 ≤ (s.busOffset addr).toNat ∧ (s.busOffset addr).toNat ≤ 0x001FFFFF) →
    memWrite addr n v s = .next s) ∧
  (∀ (s t : State) (addr v : Word) (n x : Nat), 0xFFF < (s.busOffset addr).toNat → 3 * s.params.lutDepth ≤ x →
    memWrite addr n v s = .next t → t.lut.read x = s.lut.read x)

/-- R64, R68: a 16-bit read of frame buffer offset `2k` returns sample `k`, once its two bytes are received. -/
def Obligations.SampleReadOverBus : Prop :=
  ∀ (s : State) (k : Nat), s.params.wellFormed = true → k < s.params.maxFrameSamples →
    (s.frameBuf.read (2 * k)).isSome → (s.frameBuf.read (2 * k + 1)).isSome →
    (memRead (s.params.base + BitVec.ofNat 32 (0x00200000 + 2 * k)) 2 s).1 = (s.sample k).setWidth 32

/-- R65, R68, R81: in HOLD a 32-bit read of a raster pixel returns `{255, B, G, R}` of the LUT entry of its index. -/
def Obligations.PixelReadOverBusInHold : Prop :=
  ∀ (s : State) (ox oy : Nat) (r g b : Byte), s.Inv → s.holdShowsFrame → s.engine = .hold →
    ox < s.outW → oy < s.outH →
    s.lut.read (3 * s.pixelIndex ox oy) = some r →
    s.lut.read (3 * s.pixelIndex ox oy + 1) = some g →
    s.lut.read (3 * s.pixelIndex ox oy + 2) = some b →
    (memRead (s.params.base + BitVec.ofNat 32 (0x01000000 + 4 * (oy * s.outW + ox))) 4 s).1 = 0xFF#8 ++ b ++ g ++ r

/-- R70, R74: a legal bus read returns in byte lane `q`, in every state, the byte that has been written at offset `off + q` of
the LUT, of the frame buffer, or of the raster outside PROC or beyond the frame's raster (R61, R64, R68, R78, R80), and 0 in the
lanes beyond its width. It changes nothing (the draw counter is the model's own, log 10), so a register reads the same again,
and so do such bytes. (What registers read is RegisterReads, what unmapped bytes read UnmappedBytesAndReadOnlyWindows.) -/
def Obligations.LegalReadsHaveNoSideEffect : Prop :=
  ∀ (s : State) (addr : Word) (n : Nat), n = 1 ∨ n = 2 ∨ n = 4 → (s.busOffset addr).toNat % n = 0 →
    ((s.busOffset addr).toNat ≤ 0xFFF → n = 4) →
    (memRead addr n s).2 = { s with draws := (memRead addr n s).2.draws } ∧
    (∀ q b, q < n → s.busHolds ((s.busOffset addr).toNat + q) b → (memRead addr n s).1.extractLsb' (8 * q) 8 = b) ∧
    (∀ q, n ≤ q → (memRead addr n s).1.extractLsb' (8 * q) 8 = 0) ∧
    ((s.busOffset addr).toNat ≤ 0xFFF → memRead addr n (memRead addr n s).2 = memRead addr n s) ∧
    (0x00100000 ≤ (s.busOffset addr).toNat → (s.busOffset addr).toNat ≤ 0x001FFFFF →
      (∀ q, q < n → (s.lut.read ((s.busOffset addr).toNat - 0x00100000 + q)).isSome) →
      (memRead addr n (memRead addr n s).2).1 = (memRead addr n s).1) ∧
    (0x00200000 ≤ (s.busOffset addr).toNat → (s.busOffset addr).toNat ≤ 0x002FFFFF →
      (∀ q, q < n → (s.frameBuf.read ((s.busOffset addr).toNat - 0x00200000 + q)).isSome) →
      (memRead addr n (memRead addr n s).2).1 = (memRead addr n s).1) ∧
    (0x01000000 ≤ (s.busOffset addr).toNat → (s.busOffset addr).toNat ≤ 0x01FFFFFF →
      s.engine ≠ .proc ∨ s.rasterBytes ≤ (s.busOffset addr).toNat - 0x01000000 →
      (∀ q, q < n → (s.raster.read ((s.busOffset addr).toNat - 0x01000000 + q)).isSome) →
      (memRead addr n (memRead addr n s).2).1 = (memRead addr n s).1)

/-- R52, R200: the reset input gives every register its power-on value, and every memory byte no value. -/
def Obligations.PowerOnReset : Prop :=
  ∀ (s : State) (rest : List Turn), s.schedule = .rst :: rest → s.params.wellFormed = true →
    ∃ t, step s = .next t ∧
      t.engine = .idle ∧ t.errCode = .none ∧ t.errInfo = 0 ∧ t.width = 0 ∧ t.height = 0 ∧ t.m = 1 ∧
      t.tableSize = s.params.lutDepth ∧ t.irqEn = 0 ∧ t.frameSeq = 0 ∧ t.inCount = 0 ∧
      readRegister .id t = 0x59420001 ∧ readRegister .cmd t = 0 ∧ readRegister .outW t = 0 ∧
      readRegister .outH t = 0 ∧ t.status = 0 ∧ t.irq = false ∧
      (∀ a, t.lut.read a = none ∧ t.frameBuf.read a = none ∧ t.raster.read a = none) ∧ t.params = s.params

/-- The HOST's waiting, one turn at a time, and that it changes nothing of the block. A `wait` (R101) reads STATUS and is done
when STATUS.STATE is the code of the state waited for. Waiting for `irq` (R171, R187) is done when the level is 1. The check of
START (R205) goes on in RUN, and else reads ERRINFO and stops. The frame loop (R172), by polling or by `irq`, reads STATUS,
hands the raster off and releases it in HOLD, ends in DONE, reads ERRINFO and ends in ERROR, and waits again elsewhere. (The
HOST's queue and record, and the form of these operations, are the model's: log 4, log 5, log 23.) -/
def Obligations.WaitPollsStatus : Prop :=
  (∀ (s : State) (target : EngineState) (rest : List Turn) (ops : List HostOp),
    s.schedule = .agent .host :: rest → s.hostOps = .waitFor target :: ops →
    step s = .next { s with
      schedule := rest
      hostLog := s.status :: s.hostLog
      hostOps := if s.engine = target then ops else s.hostOps }) ∧
  (∀ (s : State) (rest : List Turn) (ops : List HostOp),
    s.schedule = .agent .host :: rest → s.hostOps = .waitIrq :: ops →
    step s = .next { s with
      schedule := rest
      hostOps := if s.irq then ops else s.hostOps }) ∧
  (∀ (s : State) (rest : List Turn) (ops : List HostOp),
    s.schedule = .agent .host :: rest → s.hostOps = .checkRun :: ops →
    step s = .next { s with
      schedule := rest
      hostLog := s.status :: s.hostLog
      hostOps := if s.engine = .run then ops else [.read (s.regAddr .errInfo) 4] }) ∧
  (∀ (s : State) (byIrq : Bool) (rest : List Turn) (ops : List HostOp),
    s.schedule = .agent .host :: rest → s.hostOps = .frameLoop byIrq :: ops →
    step s = .next { s with
      schedule := rest
      hostLog := s.status :: s.hostLog
      hostOps := (match s.engine with
        | .hold =>
          .read (s.regAddr .frameSeq) 4 ::
            (List.range (s.outW * s.outH)).map
              (fun p => .read (s.params.base + BitVec.ofNat 32 (0x01000000 + 4 * p)) 4)
            ++ .write (s.regAddr .cmd) 4 0x00000002 :: (frameLoopEntry byIrq ++ ops)
        | .done => ops
        | .error => .read (s.regAddr .errInfo) 4 :: ops
        | _ => frameLoopEntry byIrq ++ ops) })

/-! Runs -/

/-- R131, R132, R139, R140: the bytes of one frame, from RUN with IN_COUNT 0, fill the frame buffer in order and enter PROC,
whatever an earlier frame left there. -/
def Obligations.FrameIngest : Prop :=
  ∀ (s : State) (bytes : List Byte), s.engine = .run → s.inCount = 0 → bytes.length = s.frameBytes →
    0 < s.frameBytes → s.frameBytes < 2 ^ 32 →
    ∃ t, execAll (bytes.map .byte) s = .next t ∧
      t = { s with frameBuf := t.frameBuf, inCount := t.inCount, engine := .proc } ∧
      t.inCount.toNat = s.frameBytes ∧
      (∀ k, k < s.frameBytes → t.frameBuf.read k = bytes[k]?) ∧
      (∀ k, s.frameBytes ≤ k → t.frameBuf.read k = s.frameBuf.read k)

/-- R173: a stream of `F` complete frames, all samples within the LUT's domain, then a chunk shorter than a frame and END,
with the HOST releasing each frame: HOLD is reached `F` times, with FRAME_SEQ one higher each time, then DONE, with IN_COUNT
the length of the chunk. -/
def Obligations.StreamOfFrames : Prop :=
  ∀ (s : State) (frames : List (List Byte)) (chunk : List Byte),
    s.params.wellFormed = true → s.startAccepts → s.engine = .run → s.inCount = 0 →
    (∀ f ∈ frames, f.length = s.frameBytes) →
    (∀ f ∈ frames, ∀ k lo hi, f[2 * k]? = some lo → f[2 * k + 1]? = some hi →
      lo.toNat + 256 * hi.toNat < s.tableSize) →
    chunk.length < s.frameBytes →
    (∀ k f, frames[k]? = some f → ∃ u,
      execAll ((frames.take k).flatMap (fun f => f.map .byte ++ [.processFrame, .release])
        ++ f.map .byte ++ [.processFrame]) s = .next u ∧
      u.engine = .hold ∧ u.frameSeq = s.frameSeq + BitVec.ofNat 32 (k + 1)) ∧
    ∃ t,
      execAll (frames.flatMap (fun f => f.map .byte ++ [.processFrame, .release])
        ++ chunk.map .byte ++ [.endOfStream]) s = .next t ∧
      t.engine = .done ∧ t.frameSeq = s.frameSeq + BitVec.ofNat 32 frames.length ∧ t.inCount.toNat = chunk.length

/-- R66: the LUT load, one byte write per file byte in IDLE, puts file byte `k` at LUT byte `k` and changes nothing else. (The
schedule, the HOST's queue and the turns of a script are the model's: log 3, log 4, log 23.) -/
def Obligations.LutFileLoads : Prop :=
  ∀ (s : State) (file : List Byte), s.params.wellFormed = true → s.engine = .idle →
    file.length ≤ 3 * s.params.lutDepth →
    ∃ t, Host.Core.run Sys2Proof.core file.length (s.withScript (lutLoad file)) = .next t ∧
      t = { s with lut := t.lut } ∧
      (∀ k, k < file.length → t.lut.read k = file[k]?) ∧
      (∀ k, file.length ≤ k → t.lut.read k = s.lut.read k)

/-! BUILD -/

/-- R115: the raw code is the literal expression on unbounded integers, a multiple of 16 in `[0, 65536]`, and 65536 for the
last entry. -/
def Obligations.RawCodeRange : Prop :=
  ∀ tableSize i : Nat, 2 ≤ tableSize → i < tableSize →
    rawCode tableSize i = ((i * 16384 / (tableSize - 1)) &&& 0xFFFC) <<< 2 ∧ i * 16384 / (tableSize - 1) ≤ 16384 ∧
    rawCode tableSize i % 16 = 0 ∧ rawCode tableSize i ≤ 65536 ∧ rawCode tableSize (tableSize - 1) = 65536

/-- R113: BUILD refuses no stops and `tableSize < 2`, and else returns `3·tableSize` bytes. -/
def Obligations.BuildDomain : Prop :=
  ∀ (stops : List ColorStop) (tableSize : Nat),
    ((stops = [] ∨ tableSize < 2) → ∃ r, buildLut stops tableSize = .error r) ∧
    (stops ≠ [] → 2 ≤ tableSize → ∃ bytes, buildLut stops tableSize = .ok bytes ∧ bytes.length = 3 * tableSize)

/-- R117 to R119, R122: where no stop exceeds the temperature, the entry is the last stop's color, for every table; and a table
of one stop gives that stop's color at every entry. -/
def Obligations.TerminalColorReused : Prop :=
  (∀ (stops : List ColorStop) (last : ColorStop) (tableSize i : Nat), stops.getLast? = some last →
    (∀ stop ∈ stops, stop.t ≤ lutCelsius tableSize i) →
    lutEntryBytes stops tableSize i = [last.r, last.g, last.b]) ∧
  (∀ (stop : ColorStop) (tableSize i : Nat), lutEntryBytes [stop] tableSize i = [stop.r, stop.g, stop.b])

/-- R116 to R118, R120: the temperature is exact; where stop `k` is the first to exceed it, strictly, the entry is the color of
stop 0 if `k = 0`, and else blends stops `k − 1` and `k` with the fraction `(c − lower.t)/(upper.t − lower.t)`, which needs no
clamp; every fraction lies in `[0, 1]`; and a channel lies between the channels of the two stops, rounded half up, so that
clamp never acts either. -/
def Obligations.ChannelBetweenStops : Prop :=
  (∀ tableSize i : Nat, lutCelsius tableSize i = (rawCode tableSize i : Rat) / 64 - 27315 / 100) ∧
  (∀ (stops : List ColorStop) (hi : ColorStop) (tableSize i k : Nat), stops[k]? = some hi →
    lutCelsius tableSize i < hi.t →
    (∀ j stop, j < k → stops[j]? = some stop → stop.t ≤ lutCelsius tableSize i) →
    (k = 0 → lutEntryBytes stops tableSize i = [hi.r, hi.g, hi.b]) ∧
    (∀ (lo : ColorStop) (u : Rat), 0 < k → stops[k - 1]? = some lo →
      u = (lutCelsius tableSize i - lo.t) / (hi.t - lo.t) →
      0 ≤ u ∧ u < 1 ∧ lutEntryBytes stops tableSize i =
        [blendChannel lo.r hi.r u, blendChannel lo.g hi.g u, blendChannel lo.b hi.b u])) ∧
  (∀ (seg : Segment) (lo hi : ColorStop) (c : Rat),
    0 ≤ segmentFraction seg lo hi c ∧ segmentFraction seg lo hi c ≤ 1) ∧
  ∀ (lo hi : Byte) (tCol : Rat), 0 ≤ tCol → tCol ≤ 1 →
    min lo.toNat hi.toNat ≤ (blendChannel lo hi tCol).toNat ∧
    (blendChannel lo hi tCol).toNat ≤ max lo.toNat hi.toNat ∧
    ((blendChannel lo hi tCol).toNat : Int) = roundHalfUp ((lo.toNat : Rat) * (1 - tCol) + (hi.toNat : Rat) * tCol)
end

