-- ==== Sys2Proof/Laws/Memory.lean ====
section
/-! SUPPORT. The laws of the memory operations: a read after a write, and that every operation keeps the canonical form. -/

namespace Sys2Proof.Machine

@[simp] theorem Memory.read_nil (a : Nat) : Memory.read [] a = none := rfl

theorem Memory.read_cons (k : Nat) (b : Byte) (m : Memory) (a : Nat) :
    Memory.read ((k, b) :: m) a = if k = a then some b else Memory.read m a := rfl

/-- A read after a write: the byte written at that address, the old value everywhere else. -/
theorem Memory.read_write (m : Memory) (a : Nat) (b : Byte) (x : Nat) :
    (Memory.write m a b).read x = if x = a then some b else m.read x := by
  induction m with
  | nil =>
    simp only [Memory.write, Memory.read_cons, Memory.read_nil, eq_comm]
  | cons c m ih =>
    obtain ⟨k, v⟩ := c
    simp only [Memory.write]
    by_cases h1 : a < k
    · simp only [h1, if_true, Memory.read_cons, eq_comm]
    · by_cases h2 : a = k
      · subst h2
        simp only [lt_irrefl, if_false, if_true, Memory.read_cons]
        by_cases hx : a = x
        · simp [hx]
        · simp [hx, eq_comm]
      · simp only [h1, h2, if_false, Memory.read_cons, ih]
        by_cases hx : x = a
        · subst hx
          simp [Ne.symm h2]
        · simp [hx]

@[simp] theorem Memory.read_write_same (m : Memory) (a : Nat) (b : Byte) : (Memory.write m a b).read a = some b := by
  simp [Memory.read_write]

theorem Memory.read_write_other (m : Memory) {a x : Nat} (b : Byte) (h : x ≠ a) :
    (Memory.write m a b).read x = m.read x := by
  simp [Memory.read_write, h]

/-- An address outside the listed ones reads as no value. -/
theorem Memory.read_eq_none_of_not_listed {m : Memory} {a : Nat} (h : ∀ c ∈ m, c.1 ≠ a) : m.read a = none := by
  induction m with
  | nil => rfl
  | cons c m ih =>
    obtain ⟨k, v⟩ := c
    have hk : k ≠ a := h (k, v) (by simp)
    simp only [Memory.read_cons, hk, if_false]
    exact ih fun d hd => h d (by simp [hd])

theorem Memory.read_append (m m' : Memory) (a : Nat) :
    Memory.read (m ++ m') a = (Memory.read m a).or (Memory.read m' a) := by
  induction m with
  | nil => simp
  | cons c m ih =>
    obtain ⟨k, v⟩ := c
    simp only [List.cons_append, Memory.read_cons, ih]
    split <;> simp

theorem Memory.read_filter (m : Memory) (p : Nat → Bool) (a : Nat) :
    Memory.read (m.filter fun c => p c.1) a = if p a then Memory.read m a else none := by
  induction m with
  | nil => simp
  | cons c m ih =>
    obtain ⟨k, v⟩ := c
    by_cases hp : p k
    · simp only [List.filter_cons, hp, if_true, Memory.read_cons, ih]
      by_cases hk : k = a
      · subst hk; simp [hp]
      · simp [hk]
    · rw [List.filter_cons_of_neg (p := fun c : Host.Cell => p c.1) hp, ih, Memory.read_cons]
      by_cases hk : k = a
      · subst hk; simp [hp]
      · simp [hk]

theorem Memory.read_map (l : List Nat) (f : Nat → Byte) (a : Nat) :
    Memory.read (l.map fun k => (k, f k)) a = if a ∈ l then some (f a) else none := by
  induction l with
  | nil => simp
  | cons k l ih =>
    simp only [List.map_cons, Memory.read_cons, ih, List.mem_cons]
    by_cases hk : k = a
    · simp [hk]
    · simp [hk, Ne.symm hk]

/-- A read after a fill: the filled byte below `n`, the old value from `n` on. -/
theorem Memory.read_fill (m : Memory) (n : Nat) (f : Nat → Byte) (a : Nat) :
    (Memory.fill m n f).read a = if a < n then some (f a) else m.read a := by
  simp only [Memory.fill, Memory.read_append, Memory.read_map, Memory.read_filter m (fun k => decide (n ≤ k)),
    List.mem_range]
  by_cases h : a < n
  · simp [h]
  · simp [h, Nat.le_of_not_lt h]

theorem Memory.mem_write {m : Memory} {a : Nat} {b : Byte} {c : Host.Cell} (h : c ∈ Memory.write m a b) :
    c.1 = a ∨ c ∈ m := by
  induction m with
  | nil =>
    simp only [Memory.write, List.mem_singleton] at h
    exact .inl (by rw [h])
  | cons d m ih =>
    obtain ⟨k, v⟩ := d
    simp only [Memory.write] at h
    split at h
    · rcases List.mem_cons.1 h with h | h
      · exact .inl (by rw [h])
      · exact .inr h
    · split at h
      · rcases List.mem_cons.1 h with h | h
        · exact .inl (by rw [h])
        · exact .inr (List.mem_cons_of_mem _ h)
      · rcases List.mem_cons.1 h with h | h
        · exact .inr (by simp [h])
        · rcases ih h with h | h
          · exact .inl h
          · exact .inr (List.mem_cons_of_mem _ h)

/-- A write keeps the canonical form. -/
theorem Memory.wf_write {m : Memory} (h : Memory.wf m) (a : Nat) (b : Byte) : Memory.wf (Memory.write m a b) := by
  induction m with
  | nil => simp [Memory.write, Memory.wf]
  | cons c m ih =>
    obtain ⟨k, v⟩ := c
    have hcons := List.pairwise_cons.1 h
    simp only [Memory.write]
    split
    · rename_i hlt
      refine List.pairwise_cons.2 ⟨fun d hd => ?_, h⟩
      rcases List.mem_cons.1 hd with hd | hd
      · rw [hd]; exact hlt
      · exact lt_trans hlt (hcons.1 d hd)
    · split
      · rename_i _ heq
        subst heq
        exact List.pairwise_cons.2 ⟨hcons.1, hcons.2⟩
      · rename_i hlt hne
        refine List.pairwise_cons.2 ⟨fun d hd => ?_, ih hcons.2⟩
        rcases Memory.mem_write hd with hd | hd
        · rw [hd]
          have : k ≠ a := fun e => hne e.symm
          show k < a
          omega
        · exact hcons.1 d hd

/-- A fill keeps the canonical form. -/
theorem Memory.wf_fill {m : Memory} (h : Memory.wf m) (n : Nat) (f : Nat → Byte) : Memory.wf (Memory.fill m n f) := by
  refine List.pairwise_append.2 ⟨?_, h.sublist List.filter_sublist, ?_⟩
  · exact List.pairwise_map.2 List.pairwise_lt_range
  · intro c hc d hd
    obtain ⟨a, ha, rfl⟩ := List.mem_map.1 hc
    have hd' := (List.mem_filter.1 hd).2
    simp only [decide_eq_true_eq] at hd'
    exact lt_of_lt_of_le (List.mem_range.1 ha) hd'

theorem Memory.within_write {m : Memory} {n a : Nat} (h : Memory.within m n) (ha : a < n) (b : Byte) :
    Memory.within (Memory.write m a b) n := by
  intro c hc
  rcases Memory.mem_write hc with hc | hc
  · rw [hc]; exact ha
  · exact h c hc

theorem Memory.within_fill {m : Memory} {n k : Nat} (h : Memory.within m n) (hk : k ≤ n) (f : Nat → Byte) :
    Memory.within (Memory.fill m k f) n := by
  intro c hc
  rcases List.mem_append.1 hc with hc | hc
  · obtain ⟨a, ha, rfl⟩ := List.mem_map.1 hc
    exact lt_of_lt_of_le (List.mem_range.1 ha) hk
  · exact h c (List.mem_filter.1 hc).1

end Sys2Proof.Machine
end

