-- ==== Sys2Proof/Laws/State.lean ====
section
/-! SUPPORT. The small lemmas of the state's updates: one per field and update that leaves it alone, so that no proof unfolds
an update for them, and what each update writes. -/

namespace Sys2Proof.Machine

/-! Raising an error keeps everything but ERRCODE, ERRINFO and the ENGINE state. -/

@[simp] theorem raiseError_params (c : ErrorCode) (w : Word) (s : State) : (raiseError c w s).params = s.params := by unfold raiseError; split <;> rfl
@[simp] theorem raiseError_frameW (c : ErrorCode) (w : Word) (s : State) : (raiseError c w s).frameW = s.frameW := by unfold raiseError; split <;> rfl
@[simp] theorem raiseError_frameH (c : ErrorCode) (w : Word) (s : State) : (raiseError c w s).frameH = s.frameH := by unfold raiseError; split <;> rfl
@[simp] theorem raiseError_mag (c : ErrorCode) (w : Word) (s : State) : (raiseError c w s).mag = s.mag := by unfold raiseError; split <;> rfl
@[simp] theorem raiseError_lutSize (c : ErrorCode) (w : Word) (s : State) : (raiseError c w s).lutSize = s.lutSize := by unfold raiseError; split <;> rfl
@[simp] theorem raiseError_irqEn (c : ErrorCode) (w : Word) (s : State) : (raiseError c w s).irqEn = s.irqEn := by unfold raiseError; split <;> rfl
@[simp] theorem raiseError_frameSeq (c : ErrorCode) (w : Word) (s : State) : (raiseError c w s).frameSeq = s.frameSeq := by unfold raiseError; split <;> rfl
@[simp] theorem raiseError_inCount (c : ErrorCode) (w : Word) (s : State) : (raiseError c w s).inCount = s.inCount := by unfold raiseError; split <;> rfl
@[simp] theorem raiseError_lut (c : ErrorCode) (w : Word) (s : State) : (raiseError c w s).lut = s.lut := by unfold raiseError; split <;> rfl
@[simp] theorem raiseError_frameBuf (c : ErrorCode) (w : Word) (s : State) : (raiseError c w s).frameBuf = s.frameBuf := by unfold raiseError; split <;> rfl
@[simp] theorem raiseError_raster (c : ErrorCode) (w : Word) (s : State) : (raiseError c w s).raster = s.raster := by unfold raiseError; split <;> rfl
@[simp] theorem raiseError_unwrittenLutRead (c : ErrorCode) (w : Word) (s : State) : (raiseError c w s).unwrittenLutRead = s.unwrittenLutRead := by unfold raiseError; split <;> rfl
@[simp] theorem raiseError_draws (c : ErrorCode) (w : Word) (s : State) : (raiseError c w s).draws = s.draws := by unfold raiseError; split <;> rfl
@[simp] theorem raiseError_schedule (c : ErrorCode) (w : Word) (s : State) : (raiseError c w s).schedule = s.schedule := by unfold raiseError; split <;> rfl
@[simp] theorem raiseError_hostOps (c : ErrorCode) (w : Word) (s : State) : (raiseError c w s).hostOps = s.hostOps := by unfold raiseError; split <;> rfl
@[simp] theorem raiseError_stream (c : ErrorCode) (w : Word) (s : State) : (raiseError c w s).stream = s.stream := by unfold raiseError; split <;> rfl
@[simp] theorem raiseError_hostLog (c : ErrorCode) (w : Word) (s : State) : (raiseError c w s).hostLog = s.hostLog := by unfold raiseError; split <;> rfl
@[simp] theorem raiseError_width (c : ErrorCode) (w : Word) (s : State) : (raiseError c w s).width = s.width := by unfold raiseError; split <;> rfl
@[simp] theorem raiseError_height (c : ErrorCode) (w : Word) (s : State) : (raiseError c w s).height = s.height := by unfold raiseError; split <;> rfl
@[simp] theorem raiseError_m (c : ErrorCode) (w : Word) (s : State) : (raiseError c w s).m = s.m := by unfold raiseError; split <;> rfl
@[simp] theorem raiseError_tableSize (c : ErrorCode) (w : Word) (s : State) : (raiseError c w s).tableSize = s.tableSize := by unfold raiseError; split <;> rfl
@[simp] theorem raiseError_frameBytes (c : ErrorCode) (w : Word) (s : State) : (raiseError c w s).frameBytes = s.frameBytes := by unfold raiseError; split <;> rfl
@[simp] theorem raiseError_outW (c : ErrorCode) (w : Word) (s : State) : (raiseError c w s).outW = s.outW := by unfold raiseError; split <;> rfl
@[simp] theorem raiseError_outH (c : ErrorCode) (w : Word) (s : State) : (raiseError c w s).outH = s.outH := by unfold raiseError; split <;> rfl
@[simp] theorem raiseError_rasterBytes (c : ErrorCode) (w : Word) (s : State) : (raiseError c w s).rasterBytes = s.rasterBytes := by unfold raiseError; split <;> rfl
@[simp] theorem raiseError_lutBytes (c : ErrorCode) (w : Word) (s : State) : (raiseError c w s).lutBytes = s.lutBytes := by unfold raiseError; split <;> rfl
@[simp] theorem raiseError_frameBufBytes (c : ErrorCode) (w : Word) (s : State) : (raiseError c w s).frameBufBytes = s.frameBufBytes := by unfold raiseError; split <;> rfl
@[simp] theorem raiseError_rasterMemBytes (c : ErrorCode) (w : Word) (s : State) : (raiseError c w s).rasterMemBytes = s.rasterMemBytes := by unfold raiseError; split <;> rfl
@[simp] theorem raiseError_configMask (c : ErrorCode) (w : Word) (s : State) : (raiseError c w s).configMask = s.configMask := by unfold raiseError; split <;> rfl

/-! Scrambling the raster. -/

@[simp] theorem scrambleRaster_params (s : State) : (scrambleRaster s).params = s.params := rfl
@[simp] theorem scrambleRaster_engine (s : State) : (scrambleRaster s).engine = s.engine := rfl
@[simp] theorem scrambleRaster_errCode (s : State) : (scrambleRaster s).errCode = s.errCode := rfl
@[simp] theorem scrambleRaster_errInfo (s : State) : (scrambleRaster s).errInfo = s.errInfo := rfl
@[simp] theorem scrambleRaster_frameW (s : State) : (scrambleRaster s).frameW = s.frameW := rfl
@[simp] theorem scrambleRaster_frameH (s : State) : (scrambleRaster s).frameH = s.frameH := rfl
@[simp] theorem scrambleRaster_mag (s : State) : (scrambleRaster s).mag = s.mag := rfl
@[simp] theorem scrambleRaster_lutSize (s : State) : (scrambleRaster s).lutSize = s.lutSize := rfl
@[simp] theorem scrambleRaster_irqEn (s : State) : (scrambleRaster s).irqEn = s.irqEn := rfl
@[simp] theorem scrambleRaster_frameSeq (s : State) : (scrambleRaster s).frameSeq = s.frameSeq := rfl
@[simp] theorem scrambleRaster_inCount (s : State) : (scrambleRaster s).inCount = s.inCount := rfl
@[simp] theorem scrambleRaster_lut (s : State) : (scrambleRaster s).lut = s.lut := rfl
@[simp] theorem scrambleRaster_frameBuf (s : State) : (scrambleRaster s).frameBuf = s.frameBuf := rfl
@[simp] theorem scrambleRaster_unwrittenLutRead (s : State) : (scrambleRaster s).unwrittenLutRead = s.unwrittenLutRead := rfl
@[simp] theorem scrambleRaster_schedule (s : State) : (scrambleRaster s).schedule = s.schedule := rfl
@[simp] theorem scrambleRaster_hostOps (s : State) : (scrambleRaster s).hostOps = s.hostOps := rfl
@[simp] theorem scrambleRaster_stream (s : State) : (scrambleRaster s).stream = s.stream := rfl
@[simp] theorem scrambleRaster_hostLog (s : State) : (scrambleRaster s).hostLog = s.hostLog := rfl
@[simp] theorem scrambleRaster_width (s : State) : (scrambleRaster s).width = s.width := rfl
@[simp] theorem scrambleRaster_height (s : State) : (scrambleRaster s).height = s.height := rfl
@[simp] theorem scrambleRaster_m (s : State) : (scrambleRaster s).m = s.m := rfl
@[simp] theorem scrambleRaster_tableSize (s : State) : (scrambleRaster s).tableSize = s.tableSize := rfl
@[simp] theorem scrambleRaster_frameBytes (s : State) : (scrambleRaster s).frameBytes = s.frameBytes := rfl
@[simp] theorem scrambleRaster_outW (s : State) : (scrambleRaster s).outW = s.outW := rfl
@[simp] theorem scrambleRaster_outH (s : State) : (scrambleRaster s).outH = s.outH := rfl
@[simp] theorem scrambleRaster_rasterBytes (s : State) : (scrambleRaster s).rasterBytes = s.rasterBytes := rfl
@[simp] theorem scrambleRaster_lutBytes (s : State) : (scrambleRaster s).lutBytes = s.lutBytes := rfl
@[simp] theorem scrambleRaster_frameBufBytes (s : State) : (scrambleRaster s).frameBufBytes = s.frameBufBytes := rfl
@[simp] theorem scrambleRaster_rasterMemBytes (s : State) : (scrambleRaster s).rasterMemBytes = s.rasterMemBytes := rfl
@[simp] theorem scrambleRaster_configMask (s : State) : (scrambleRaster s).configMask = s.configMask := rfl

/-! Clearing the run state. -/

@[simp] theorem clearRun_params (s : State) : (clearRun s).params = s.params := rfl
@[simp] theorem clearRun_frameW (s : State) : (clearRun s).frameW = s.frameW := rfl
@[simp] theorem clearRun_frameH (s : State) : (clearRun s).frameH = s.frameH := rfl
@[simp] theorem clearRun_mag (s : State) : (clearRun s).mag = s.mag := rfl
@[simp] theorem clearRun_lutSize (s : State) : (clearRun s).lutSize = s.lutSize := rfl
@[simp] theorem clearRun_irqEn (s : State) : (clearRun s).irqEn = s.irqEn := rfl
@[simp] theorem clearRun_lut (s : State) : (clearRun s).lut = s.lut := rfl
@[simp] theorem clearRun_frameBuf (s : State) : (clearRun s).frameBuf = s.frameBuf := rfl
@[simp] theorem clearRun_raster (s : State) : (clearRun s).raster = s.raster := rfl
@[simp] theorem clearRun_unwrittenLutRead (s : State) : (clearRun s).unwrittenLutRead = s.unwrittenLutRead := rfl
@[simp] theorem clearRun_draws (s : State) : (clearRun s).draws = s.draws := rfl
@[simp] theorem clearRun_schedule (s : State) : (clearRun s).schedule = s.schedule := rfl
@[simp] theorem clearRun_hostOps (s : State) : (clearRun s).hostOps = s.hostOps := rfl
@[simp] theorem clearRun_stream (s : State) : (clearRun s).stream = s.stream := rfl
@[simp] theorem clearRun_hostLog (s : State) : (clearRun s).hostLog = s.hostLog := rfl
@[simp] theorem clearRun_width (s : State) : (clearRun s).width = s.width := rfl
@[simp] theorem clearRun_height (s : State) : (clearRun s).height = s.height := rfl
@[simp] theorem clearRun_m (s : State) : (clearRun s).m = s.m := rfl
@[simp] theorem clearRun_tableSize (s : State) : (clearRun s).tableSize = s.tableSize := rfl
@[simp] theorem clearRun_frameBytes (s : State) : (clearRun s).frameBytes = s.frameBytes := rfl
@[simp] theorem clearRun_outW (s : State) : (clearRun s).outW = s.outW := rfl
@[simp] theorem clearRun_outH (s : State) : (clearRun s).outH = s.outH := rfl
@[simp] theorem clearRun_rasterBytes (s : State) : (clearRun s).rasterBytes = s.rasterBytes := rfl
@[simp] theorem clearRun_lutBytes (s : State) : (clearRun s).lutBytes = s.lutBytes := rfl
@[simp] theorem clearRun_frameBufBytes (s : State) : (clearRun s).frameBufBytes = s.frameBufBytes := rfl
@[simp] theorem clearRun_rasterMemBytes (s : State) : (clearRun s).rasterMemBytes = s.rasterMemBytes := rfl
@[simp] theorem clearRun_configMask (s : State) : (clearRun s).configMask = s.configMask := rfl

/-! Soft reset. -/

@[simp] theorem softReset_params (s : State) : (softReset s).params = s.params := by unfold softReset; split <;> rfl
@[simp] theorem softReset_frameW (s : State) : (softReset s).frameW = s.frameW := by unfold softReset; split <;> rfl
@[simp] theorem softReset_frameH (s : State) : (softReset s).frameH = s.frameH := by unfold softReset; split <;> rfl
@[simp] theorem softReset_mag (s : State) : (softReset s).mag = s.mag := by unfold softReset; split <;> rfl
@[simp] theorem softReset_lutSize (s : State) : (softReset s).lutSize = s.lutSize := by unfold softReset; split <;> rfl
@[simp] theorem softReset_irqEn (s : State) : (softReset s).irqEn = s.irqEn := by unfold softReset; split <;> rfl
@[simp] theorem softReset_lut (s : State) : (softReset s).lut = s.lut := by unfold softReset; split <;> rfl
@[simp] theorem softReset_frameBuf (s : State) : (softReset s).frameBuf = s.frameBuf := by unfold softReset; split <;> rfl
@[simp] theorem softReset_unwrittenLutRead (s : State) : (softReset s).unwrittenLutRead = s.unwrittenLutRead := by unfold softReset; split <;> rfl
@[simp] theorem softReset_schedule (s : State) : (softReset s).schedule = s.schedule := by unfold softReset; split <;> rfl
@[simp] theorem softReset_hostOps (s : State) : (softReset s).hostOps = s.hostOps := by unfold softReset; split <;> rfl
@[simp] theorem softReset_stream (s : State) : (softReset s).stream = s.stream := by unfold softReset; split <;> rfl
@[simp] theorem softReset_hostLog (s : State) : (softReset s).hostLog = s.hostLog := by unfold softReset; split <;> rfl
@[simp] theorem softReset_width (s : State) : (softReset s).width = s.width := by unfold softReset; split <;> rfl
@[simp] theorem softReset_height (s : State) : (softReset s).height = s.height := by unfold softReset; split <;> rfl
@[simp] theorem softReset_m (s : State) : (softReset s).m = s.m := by unfold softReset; split <;> rfl
@[simp] theorem softReset_tableSize (s : State) : (softReset s).tableSize = s.tableSize := by unfold softReset; split <;> rfl
@[simp] theorem softReset_frameBytes (s : State) : (softReset s).frameBytes = s.frameBytes := by unfold softReset; split <;> rfl
@[simp] theorem softReset_outW (s : State) : (softReset s).outW = s.outW := by unfold softReset; split <;> rfl
@[simp] theorem softReset_outH (s : State) : (softReset s).outH = s.outH := by unfold softReset; split <;> rfl
@[simp] theorem softReset_rasterBytes (s : State) : (softReset s).rasterBytes = s.rasterBytes := by unfold softReset; split <;> rfl
@[simp] theorem softReset_lutBytes (s : State) : (softReset s).lutBytes = s.lutBytes := by unfold softReset; split <;> rfl
@[simp] theorem softReset_frameBufBytes (s : State) : (softReset s).frameBufBytes = s.frameBufBytes := by unfold softReset; split <;> rfl
@[simp] theorem softReset_rasterMemBytes (s : State) : (softReset s).rasterMemBytes = s.rasterMemBytes := by unfold softReset; split <;> rfl
@[simp] theorem softReset_configMask (s : State) : (softReset s).configMask = s.configMask := by unfold softReset; split <;> rfl

/-! Recording the model fault. -/

@[simp] theorem recordUnwrittenLut_params (s : State) : (recordUnwrittenLut s).params = s.params := rfl
@[simp] theorem recordUnwrittenLut_engine (s : State) : (recordUnwrittenLut s).engine = s.engine := rfl
@[simp] theorem recordUnwrittenLut_errCode (s : State) : (recordUnwrittenLut s).errCode = s.errCode := rfl
@[simp] theorem recordUnwrittenLut_errInfo (s : State) : (recordUnwrittenLut s).errInfo = s.errInfo := rfl
@[simp] theorem recordUnwrittenLut_frameW (s : State) : (recordUnwrittenLut s).frameW = s.frameW := rfl
@[simp] theorem recordUnwrittenLut_frameH (s : State) : (recordUnwrittenLut s).frameH = s.frameH := rfl
@[simp] theorem recordUnwrittenLut_mag (s : State) : (recordUnwrittenLut s).mag = s.mag := rfl
@[simp] theorem recordUnwrittenLut_lutSize (s : State) : (recordUnwrittenLut s).lutSize = s.lutSize := rfl
@[simp] theorem recordUnwrittenLut_irqEn (s : State) : (recordUnwrittenLut s).irqEn = s.irqEn := rfl
@[simp] theorem recordUnwrittenLut_frameSeq (s : State) : (recordUnwrittenLut s).frameSeq = s.frameSeq := rfl
@[simp] theorem recordUnwrittenLut_inCount (s : State) : (recordUnwrittenLut s).inCount = s.inCount := rfl
@[simp] theorem recordUnwrittenLut_lut (s : State) : (recordUnwrittenLut s).lut = s.lut := rfl
@[simp] theorem recordUnwrittenLut_frameBuf (s : State) : (recordUnwrittenLut s).frameBuf = s.frameBuf := rfl
@[simp] theorem recordUnwrittenLut_raster (s : State) : (recordUnwrittenLut s).raster = s.raster := rfl
@[simp] theorem recordUnwrittenLut_draws (s : State) : (recordUnwrittenLut s).draws = s.draws := rfl
@[simp] theorem recordUnwrittenLut_schedule (s : State) : (recordUnwrittenLut s).schedule = s.schedule := rfl
@[simp] theorem recordUnwrittenLut_hostOps (s : State) : (recordUnwrittenLut s).hostOps = s.hostOps := rfl
@[simp] theorem recordUnwrittenLut_stream (s : State) : (recordUnwrittenLut s).stream = s.stream := rfl
@[simp] theorem recordUnwrittenLut_hostLog (s : State) : (recordUnwrittenLut s).hostLog = s.hostLog := rfl
@[simp] theorem recordUnwrittenLut_width (s : State) : (recordUnwrittenLut s).width = s.width := rfl
@[simp] theorem recordUnwrittenLut_height (s : State) : (recordUnwrittenLut s).height = s.height := rfl
@[simp] theorem recordUnwrittenLut_m (s : State) : (recordUnwrittenLut s).m = s.m := rfl
@[simp] theorem recordUnwrittenLut_tableSize (s : State) : (recordUnwrittenLut s).tableSize = s.tableSize := rfl
@[simp] theorem recordUnwrittenLut_frameBytes (s : State) : (recordUnwrittenLut s).frameBytes = s.frameBytes := rfl
@[simp] theorem recordUnwrittenLut_outW (s : State) : (recordUnwrittenLut s).outW = s.outW := rfl
@[simp] theorem recordUnwrittenLut_outH (s : State) : (recordUnwrittenLut s).outH = s.outH := rfl
@[simp] theorem recordUnwrittenLut_rasterBytes (s : State) : (recordUnwrittenLut s).rasterBytes = s.rasterBytes := rfl
@[simp] theorem recordUnwrittenLut_lutBytes (s : State) : (recordUnwrittenLut s).lutBytes = s.lutBytes := rfl
@[simp] theorem recordUnwrittenLut_frameBufBytes (s : State) : (recordUnwrittenLut s).frameBufBytes = s.frameBufBytes := rfl
@[simp] theorem recordUnwrittenLut_rasterMemBytes (s : State) : (recordUnwrittenLut s).rasterMemBytes = s.rasterMemBytes := rfl
@[simp] theorem recordUnwrittenLut_configMask (s : State) : (recordUnwrittenLut s).configMask = s.configMask := rfl

/-! Publishing a frame. -/

@[simp] theorem publishFrame_params (s : State) : (publishFrame s).params = s.params := rfl
@[simp] theorem publishFrame_errCode (s : State) : (publishFrame s).errCode = s.errCode := rfl
@[simp] theorem publishFrame_errInfo (s : State) : (publishFrame s).errInfo = s.errInfo := rfl
@[simp] theorem publishFrame_frameW (s : State) : (publishFrame s).frameW = s.frameW := rfl
@[simp] theorem publishFrame_frameH (s : State) : (publishFrame s).frameH = s.frameH := rfl
@[simp] theorem publishFrame_mag (s : State) : (publishFrame s).mag = s.mag := rfl
@[simp] theorem publishFrame_lutSize (s : State) : (publishFrame s).lutSize = s.lutSize := rfl
@[simp] theorem publishFrame_irqEn (s : State) : (publishFrame s).irqEn = s.irqEn := rfl
@[simp] theorem publishFrame_inCount (s : State) : (publishFrame s).inCount = s.inCount := rfl
@[simp] theorem publishFrame_lut (s : State) : (publishFrame s).lut = s.lut := rfl
@[simp] theorem publishFrame_frameBuf (s : State) : (publishFrame s).frameBuf = s.frameBuf := rfl
@[simp] theorem publishFrame_unwrittenLutRead (s : State) : (publishFrame s).unwrittenLutRead = s.unwrittenLutRead := rfl
@[simp] theorem publishFrame_schedule (s : State) : (publishFrame s).schedule = s.schedule := rfl
@[simp] theorem publishFrame_hostOps (s : State) : (publishFrame s).hostOps = s.hostOps := rfl
@[simp] theorem publishFrame_stream (s : State) : (publishFrame s).stream = s.stream := rfl
@[simp] theorem publishFrame_hostLog (s : State) : (publishFrame s).hostLog = s.hostLog := rfl
@[simp] theorem publishFrame_width (s : State) : (publishFrame s).width = s.width := rfl
@[simp] theorem publishFrame_height (s : State) : (publishFrame s).height = s.height := rfl
@[simp] theorem publishFrame_m (s : State) : (publishFrame s).m = s.m := rfl
@[simp] theorem publishFrame_tableSize (s : State) : (publishFrame s).tableSize = s.tableSize := rfl
@[simp] theorem publishFrame_frameBytes (s : State) : (publishFrame s).frameBytes = s.frameBytes := rfl
@[simp] theorem publishFrame_outW (s : State) : (publishFrame s).outW = s.outW := rfl
@[simp] theorem publishFrame_outH (s : State) : (publishFrame s).outH = s.outH := rfl
@[simp] theorem publishFrame_rasterBytes (s : State) : (publishFrame s).rasterBytes = s.rasterBytes := rfl
@[simp] theorem publishFrame_lutBytes (s : State) : (publishFrame s).lutBytes = s.lutBytes := rfl
@[simp] theorem publishFrame_frameBufBytes (s : State) : (publishFrame s).frameBufBytes = s.frameBufBytes := rfl
@[simp] theorem publishFrame_rasterMemBytes (s : State) : (publishFrame s).rasterMemBytes = s.rasterMemBytes := rfl
@[simp] theorem publishFrame_configMask (s : State) : (publishFrame s).configMask = s.configMask := rfl

/-! What the updates write. -/

@[simp] theorem clearRun_engine (s : State) : (clearRun s).engine = .idle := rfl
@[simp] theorem clearRun_errCode (s : State) : (clearRun s).errCode = .none := rfl
@[simp] theorem clearRun_errInfo (s : State) : (clearRun s).errInfo = 0 := rfl
@[simp] theorem clearRun_frameSeq (s : State) : (clearRun s).frameSeq = 0 := rfl
@[simp] theorem clearRun_inCount (s : State) : (clearRun s).inCount = 0 := rfl
@[simp] theorem softReset_engine (s : State) : (softReset s).engine = .idle := rfl
@[simp] theorem softReset_errCode (s : State) : (softReset s).errCode = .none := rfl
@[simp] theorem softReset_errInfo (s : State) : (softReset s).errInfo = 0 := rfl
@[simp] theorem softReset_frameSeq (s : State) : (softReset s).frameSeq = 0 := rfl
@[simp] theorem softReset_inCount (s : State) : (softReset s).inCount = 0 := rfl
@[simp] theorem publishFrame_engine (s : State) : (publishFrame s).engine = .hold := rfl
@[simp] theorem publishFrame_frameSeq (s : State) : (publishFrame s).frameSeq = s.frameSeq + 1 := rfl
@[simp] theorem publishFrame_raster (s : State) :
    (publishFrame s).raster = s.raster.fill s.rasterBytes s.rasterByte := rfl
@[simp] theorem scrambleRaster_raster (s : State) :
    (scrambleRaster s).raster = s.raster.fill s.rasterBytes (fun a => Config.freeByte (s.draws + a)) := rfl
@[simp] theorem raiseError_engine (c : ErrorCode) (w : Word) (s : State) : (raiseError c w s).engine = .error := by
  unfold raiseError; split <;> simp_all

/-- The first error is kept (R183). -/
theorem raiseError_in_error {s : State} (h : s.engine = .error) (c : ErrorCode) (w : Word) : raiseError c w s = s := by
  simp [raiseError, h]

/-- Outside ERROR the code and the information word are recorded (R183). -/
theorem raiseError_outside_error {s : State} (h : s.engine ≠ .error) (c : ErrorCode) (w : Word) :
    raiseError c w s = { s with errCode := c, errInfo := w, engine := .error } := by
  simp [raiseError, h]

/-- Outside PROC a soft reset is the clearing of the run state alone (R168). -/
theorem softReset_outside_proc {s : State} (h : s.engine ≠ .proc) : softReset s = clearRun s := by
  simp [softReset, h]

/-- In PROC it scrambles the raster as well (R168). -/
theorem softReset_in_proc {s : State} (h : s.engine = .proc) : softReset s = clearRun (scrambleRaster s) := by
  simp [softReset, h]

end Sys2Proof.Machine
end

