-- ==== Sys2Proof/Laws/Step.lean ====
section
/-! SUPPORT. Said once: everything an instruction, a bus access and a step can do to the state. -/

namespace Sys2Proof.Machine

open Sys2Proof.Config (Agent)

/-- `u` is `s` but for the agents' pending inputs, the HOST's log and the draw counter. -/
def Quiet (s u : State) : Prop :=
  ∃ (d : Nat) (sc : List Turn) (ho : List HostOp) (st : List Token) (lg : List Word),
    u = { s with draws := d, schedule := sc, hostOps := ho, stream := st, hostLog := lg }

theorem Quiet.refl (s : State) : Quiet s s := ⟨s.draws, s.schedule, s.hostOps, s.stream, s.hostLog, rfl⟩

theorem Quiet.trans {s u t : State} (h : Quiet s u) (h' : Quiet u t) : Quiet s t := by
  obtain ⟨d, sc, ho, st, lg, rfl⟩ := h
  obtain ⟨d', sc', ho', st', lg', rfl⟩ := h'
  exact ⟨d', sc', ho', st', lg', rfl⟩

/-- What one transition can do to the block, but for the reset input. -/
inductive Transition : State → State → Prop where
  | stay (s : State) : Transition s s
  | error (s : State) (c : ErrorCode) (w : Word) (hc : c ≠ .none) : Transition s (raiseError c w s)
  | softReset (s : State) : Transition s (softReset s)
  | start (s : State) (h : s.engine = .idle) (hm : s.configMask = 0) :
      Transition s { s with inCount := 0, frameSeq := 0, engine := .run }
  | release (s : State) (h : s.engine = .hold) : Transition s { s with inCount := 0, engine := .run }
  | byte (s : State) (b : Byte) (h : s.engine = .run) :
      Transition s { s with
        frameBuf := s.frameBuf.write s.inCount.toNat b
        inCount := s.inCount + 1
        engine := if (s.inCount + 1).toNat = s.frameBytes then .proc else .run }
  | endOfStream (s : State) (h : s.engine = .run) : Transition s { s with engine := .done }
  | publish (s : State) (h : s.engine = .proc) (hb : s.badIndices = []) :
      Transition s (recordUnwrittenLut (publishFrame s))
  | lutRange (s : State) (h : s.engine = .proc) (hb : s.badIndices ≠ []) :
      Transition s (raiseError .lutRange (BitVec.ofNat 32 (pickBad s.draws s.badIndices))
        (recordUnwrittenLut (scrambleRaster s)))
  | setFrameW (s : State) (v : BitVec 16) (h : s.engine = .idle) : Transition s { s with frameW := v }
  | setFrameH (s : State) (v : BitVec 16) (h : s.engine = .idle) : Transition s { s with frameH := v }
  | setMag (s : State) (v : BitVec 8) (h : s.engine = .idle) : Transition s { s with mag := v }
  | setLutSize (s : State) (v : BitVec 17) (h : s.engine = .idle) : Transition s { s with lutSize := v }
  | setIrqEn (s : State) (v : BitVec 3) : Transition s { s with irqEn := v }
  | writeLut (s : State) (a : Nat) (v : Word) (n : Nat) (h : s.engine = .idle) :
      Transition s { s with lut := s.lutWritten a v n }

theorem State.inReady_iff (s : State) : s.inReady = true ↔ s.engine = .run := by simp [State.inReady]

/-- What an instruction can do. -/
theorem exec_transition {i : Instr} {s t : State} (h : exec i s = .next t) : Transition s t := by
  cases i with
  | nop => cases h; exact .stay s
  | start =>
    simp only [exec, execStart] at h
    split at h
    · cases h; exact .error s _ _ (by decide)
    · rename_i h1
      split at h
      · cases h; exact .error s _ _ (by decide)
      · rename_i h2
        cases h
        exact .start s (not_not.1 h1) (not_not.1 h2)
  | release =>
    simp only [exec, execRelease] at h
    split at h
    · cases h; exact .error s _ _ (by decide)
    · rename_i h1
      cases h
      exact .release s (not_not.1 h1)
  | reset => cases h; exact .softReset s
  | byte b =>
    simp only [exec, execByte] at h
    split at h
    · rename_i h1
      cases h
      exact .byte s b ((State.inReady_iff s).1 h1)
    · cases h; exact .stay s
  | endOfStream =>
    simp only [exec, execEndOfStream] at h
    split at h
    · rename_i h1
      cases h
      exact .endOfStream s ((State.inReady_iff s).1 h1)
    · cases h; exact .stay s
  | reservedToken data =>
    simp only [exec, execReservedToken] at h
    split at h
    · cases h; exact .error s _ _ (by decide)
    · cases h; exact .stay s
  | processFrame =>
    simp only [exec, execProcessFrame] at h
    split at h
    · cases h; exact .stay s
    · rename_i h1
      split at h
      · rename_i h2
        cases h
        exact .publish s (not_not.1 h1) h2
      · rename_i h2
        cases h
        exact .lutRange s (not_not.1 h1) h2

/-- What a write of a register that is no command can do. -/
theorem writePlainRegister_transition (r : Reg) (v : Word) (s : State) :
    Transition s (writePlainRegister r v s) := by
  cases r <;> simp only [writePlainRegister, writeConfig]
  case irqEn => exact .setIrqEn s _
  case frameW => split; exacts [.setFrameW s _ ‹_›, .error s _ _ (by decide)]
  case frameH => split; exacts [.setFrameH s _ ‹_›, .error s _ _ (by decide)]
  case mag => split; exacts [.setMag s _ ‹_›, .error s _ _ (by decide)]
  case lutSize => split; exacts [.setLutSize s _ ‹_›, .error s _ _ (by decide)]
  all_goals exact .stay s

/-- What a register write can do. -/
theorem writeRegister_transition {off : Nat} {v : Word} {s t : State} (h : writeRegister off v s = .next t) :
    Transition s t := by
  unfold writeRegister at h
  split at h
  · cases h; exact .stay s
  · unfold writeCmd at h
    split at h
    · exact exec_transition h
    · cases h; exact .error s _ _ (by decide)
  · cases h; exact writePlainRegister_transition _ _ s

/-- What a bus write can do. -/
theorem memWrite_transition {addr : Word} {n : Nat} {v : Word} {s t : State} (h : memWrite addr n v s = .next t) :
    Transition s t := by
  simp only [memWrite] at h
  split at h
  · split at h
    · exact writeRegister_transition h
    · cases h; exact .error s _ _ (by decide)
  · split at h
    · split at h
      · rename_i hi
        cases h
        exact .writeLut s _ v n hi
      · cases h; exact .error s _ _ (by decide)
    · cases h; exact .error s _ _ (by decide)
  · split at h
    · cases h; exact .stay s
    · cases h; exact .error s _ _ (by decide)

/-- What a bus read can do to the state: count draws, or raise BUS_ALIGN. -/
theorem memRead_state (addr : Word) (n : Nat) (s : State) :
    (∃ d, (memRead addr n s).2 = { s with draws := d }) ∨
      (memRead addr n s).2 = raiseError .busAlign (s.busOffset addr) s := by
  simp only [memRead]
  split
  · split
    · exact .inl ⟨s.draws, rfl⟩
    · exact .inr rfl
  · split
    · exact .inl ⟨_, rfl⟩
    · exact .inr rfl

/-- Changing the HOST's side of a state after an error is changing it before. -/
theorem raiseError_hostSide (c : ErrorCode) (w : Word) (s : State) (lg : List Word) (ho : List HostOp) :
    { raiseError c w s with hostLog := lg, hostOps := ho } =
      raiseError c w { s with hostLog := lg, hostOps := ho } := by
  unfold raiseError
  by_cases h : s.engine = .error <;> simp [h]

/-- A bus read with its effect on the HOST's side, as one transition. -/
theorem memRead_transition (addr : Word) (n : Nat) (s : State) (lg : List Word) (ho : List HostOp) :
    ∃ u, Quiet s u ∧ Transition u { (memRead addr n s).2 with hostLog := lg, hostOps := ho } := by
  rcases memRead_state addr n s with ⟨d, h⟩ | h
  · rw [h]
    exact ⟨_, ⟨d, s.schedule, ho, s.stream, lg, rfl⟩, .stay _⟩
  · rw [h, raiseError_hostSide]
    exact ⟨_, ⟨s.draws, s.schedule, ho, s.stream, lg, rfl⟩, .error _ _ _ (by decide)⟩

/-- A bus read leaves the HOST's remaining operations as they are. -/
@[simp] theorem memRead_hostOps (addr : Word) (n : Nat) (s : State) : (memRead addr n s).2.hostOps = s.hostOps := by
  rcases memRead_state addr n s with ⟨d, h⟩ | h <;> rw [h]
  simp

/-- What a turn of the HOST can do. -/
theorem hostTurn_transition {s t : State} (h : hostTurn s = .next t) : ∃ u, Quiet s u ∧ Transition u t := by
  unfold hostTurn at h
  split at h
  · cases h; exact ⟨s, .refl s, .stay s⟩
  · rename_i addr n rest _
    cases h
    obtain ⟨u, hq, ht⟩ :=
      memRead_transition addr n { s with hostOps := rest } ((memRead addr n { s with hostOps := rest }).1 :: s.hostLog) rest
    refine ⟨u, Quiet.trans ⟨s.draws, s.schedule, rest, s.stream, s.hostLog, rfl⟩ hq, ?_⟩
    have hops : (memRead addr n { s with hostOps := rest }).2.hostOps = rest := by simp
    generalize memRead addr n { s with hostOps := rest } = r at ht hops ⊢
    rw [← hops] at ht
    exact ht
  · rename_i rest _
    exact ⟨_, ⟨s.draws, s.schedule, rest, s.stream, s.hostLog, rfl⟩, memWrite_transition h⟩
  · cases h
    exact memRead_transition (s.regAddr .status) 4 s _ _
  · cases h
    exact ⟨_, ⟨s.draws, s.schedule, _, s.stream, s.hostLog, rfl⟩, .stay _⟩
  · cases h
    exact memRead_transition (s.regAddr .status) 4 s _ _
  · cases h
    exact memRead_transition (s.regAddr .status) 4 s _ _

/-- What an agent's turn can do: one transition, from a state that differs in the pending inputs only. -/
theorem agentTurn_transition {a : Agent} {s t : State} (h : takeTurn (.agent a) s = .next t) :
    ∃ u, Quiet s u ∧ Transition u t := by
  cases a with
  | host => exact hostTurn_transition h
  | source =>
    simp only [takeTurn, sourceTurn] at h
    split at h
    · cases h; exact ⟨s, .refl s, .stay s⟩
    · rename_i tok rest _
      split at h
      · exact ⟨_, ⟨s.draws, s.schedule, s.hostOps, rest, s.hostLog, rfl⟩, exec_transition h⟩
      · cases h; exact ⟨s, .refl s, .stay s⟩
  | engine =>
    simp only [takeTurn, engineTurn] at h
    split at h
    · exact ⟨s, .refl s, exec_transition h⟩
    · cases h; exact ⟨s, .refl s, .stay s⟩

/-- Choosing whose turn it is changes the schedule and the draw counter only. -/
theorem nextTurn_quiet (s : State) : Quiet s (nextTurn s).2 := by
  unfold nextTurn
  split
  · exact ⟨s.draws, _, s.hostOps, s.stream, s.hostLog, rfl⟩
  · exact ⟨_, s.schedule, s.hostOps, s.stream, s.hostLog, rfl⟩

/-- What a step can do: the reset input if it is scheduled next, else one transition. -/
theorem step_transition {s t : State} (h : step s = .next t) :
    ∃ u, Quiet s u ∧ ((s.schedule.head? = some .rst ∧ t = powerOnReset u) ∨ Transition u t) := by
  have hq := nextTurn_quiet s
  unfold step at h
  generalize hu : (nextTurn s).2 = u at h hq
  cases hn : (nextTurn s).1 with
  | agent a =>
    rw [hn] at h
    obtain ⟨v, hv, ht⟩ := agentTurn_transition h
    exact ⟨v, hq.trans hv, .inr ht⟩
  | rst =>
    rw [hn] at h
    cases h
    refine ⟨u, hq, .inl ⟨?_, rfl⟩⟩
    unfold nextTurn at hn
    split at hn
    · rename_i hs
      rw [hs]
      exact congrArg some hn
    · cases hn

/-- Instructions one after another: the rest starts where the first ones end. -/
theorem execAll_append {is js : List Instr} {s t : State} (h : execAll is s = .next t) :
    execAll (is ++ js) s = execAll js t := by
  induction is generalizing s with
  | nil => cases h; rfl
  | cons i is ih =>
    simp only [execAll, List.cons_append] at h ⊢
    cases hi : exec i s with
    | next u => rw [hi] at h; exact ih h
    | fault f => cases f
    | refused r => rw [hi] at h; cases h

/-- A run of `k + 1` steps is a step and a run of `k`. -/
theorem run_succ {M : Host.Core} {k : Nat} {s u : M.State} (h : M.step s = .next u) : M.run (k + 1) s = M.run k u := by
  simp only [Host.Core.run, h]

end Sys2Proof.Machine
end

