-- ==== Sys2Proof/Laws/Bus.lean ====
section
/-! SUPPORT. The bus: the offset of a register's address, the windows, and the LUT memory after a write. -/

namespace Sys2Proof.Machine

/-- The bus offset of `BUCM_BASE + x` is `x`. -/
@[simp] theorem busOffset_base_add (s : State) (x : Word) : s.busOffset (s.params.base + x) = x := by
  simp only [State.busOffset]
  bv_omega

@[simp] theorem busOffset_regAddr (s : State) (r : Reg) : s.busOffset (s.regAddr r) = BitVec.ofNat 32 r.offset :=
  busOffset_base_add s _

/-- The register at its own offset (R25). -/
@[simp] theorem Reg.at_offset (r : Reg) : Reg.at r.offset = some r := by cases r <;> rfl

theorem Reg.offset_toNat (r : Reg) : (BitVec.ofNat 32 r.offset).toNat = r.offset := by cases r <;> rfl

theorem windowOf_register {off : Nat} (h : off ≤ 0xFFF) : windowOf off = .registers off := by
  simp [windowOf, h]

theorem windowOf_lut {off : Nat} (h : 0x00100000 ≤ off) (h' : off ≤ 0x001FFFFF) :
    windowOf off = .lut (off - 0x00100000) := by
  rw [windowOf, if_neg (by omega), if_pos ⟨h, h'⟩]

theorem windowOf_frameBuf {off : Nat} (h : 0x00200000 ≤ off) (h' : off ≤ 0x002FFFFF) :
    windowOf off = .frameBuf (off - 0x00200000) := by
  rw [windowOf, if_neg (by omega), if_neg (by omega), if_pos ⟨h, h'⟩]

theorem windowOf_raster {off : Nat} (h : 0x01000000 ≤ off) (h' : off ≤ 0x01FFFFFF) :
    windowOf off = .raster (off - 0x01000000) := by
  rw [windowOf, if_neg (by omega), if_neg (by omega), if_neg (by omega), if_pos ⟨h, h'⟩]

@[simp] theorem windowOf_regOffset (r : Reg) : windowOf r.offset = .registers r.offset := by cases r <;> rfl

@[simp] theorem registerAccessLegal_regOffset (r : Reg) : registerAccessLegal r.offset 4 = true := by cases r <;> rfl

/-- A 32-bit read at a register's address (R70). -/
theorem memRead_regAddr (s : State) (r : Reg) : memRead (s.regAddr r) 4 s = (readRegister r s, s) := by
  simp only [memRead, busOffset_regAddr, Reg.offset_toNat, windowOf_regOffset, registerAccessLegal_regOffset, if_true,
    Reg.at_offset]

/-- A 32-bit write at a register's address is the register write (R71). -/
theorem memWrite_regAddr (s : State) (r : Reg) (v : Word) : memWrite (s.regAddr r) 4 v s = writeRegister r.offset v s := by
  simp only [memWrite, busOffset_regAddr, Reg.offset_toNat, windowOf_regOffset, registerAccessLegal_regOffset, if_true]

/-- A legal read outside the register window: the bytes, and the state with their draws counted (R70). -/
theorem memRead_window {s : State} {addr : Word} {n : Nat} (h : 0xFFF < (s.busOffset addr).toNat)
    (hl : windowAccessLegal (s.busOffset addr).toNat n = true) :
    memRead addr n s =
      (BitVec.ofNat 32 (s.busBytes (s.busOffset addr).toNat n), { s with draws := s.draws + n }) := by
  have hw : ∀ a, windowOf (s.busOffset addr).toNat ≠ .registers a := by
    intro a
    unfold windowOf
    rw [if_neg (by omega)]
    split_ifs <;> simp
  cases hk : windowOf (s.busOffset addr).toNat with
  | registers a => exact absurd hk (hw a)
  | lut | frameBuf | raster | unmapped => simp only [memRead, hk, hl, if_true]

/-- A LUT byte after `n` byte lanes are written from LUT byte `a` on (R62, R71). -/
theorem lutWritten_read (s : State) (a : Nat) (v : Word) (n x : Nat) :
    (s.lutWritten a v n).read x =
      if a ≤ x ∧ x < a + n ∧ x < s.lutBytes then some (byteLane v (x - a)) else s.lut.read x := by
  induction n with
  | zero =>
    rw [if_neg (by omega)]
    rfl
  | succ n ih =>
    unfold State.lutWritten
    by_cases hb : a + n < s.lutBytes
    · rw [if_pos hb, Memory.read_write, ih]
      by_cases hx : x = a + n
      · subst hx
        rw [if_pos rfl, if_pos (by omega)]
        congr 2
        omega
      · rw [if_neg hx]
        by_cases hc : a ≤ x ∧ x < a + n ∧ x < s.lutBytes
        · rw [if_pos hc, if_pos (by omega)]
        · rw [if_neg hc, if_neg (by omega)]
    · rw [if_neg hb, ih]
      by_cases hc : a ≤ x ∧ x < a + n ∧ x < s.lutBytes
      · rw [if_pos hc, if_pos (by omega)]
      · rw [if_neg hc, if_neg (by omega)]

/-- A byte lane as a number (R68). -/
theorem byteLane_toNat (v : Word) (k : Nat) : (byteLane v k).toNat = v.toNat / 2 ^ (8 * k) % 256 := by
  simp [byteLane, Nat.shiftRight_eq_div_pow]

/-- Bytes that are the lanes of a word read as the word's low bits (R68, R70). -/
theorem busBytes_of_lanes {s : State} {off n : Nat} {v : Word}
    (h : ∀ q, q < n → s.busByte (s.draws + q) (off + q) = byteLane v q) :
    s.busBytes off n = v.toNat % 2 ^ (8 * n) := by
  induction n with
  | zero => exact (Nat.mod_one _).symm
  | succ n ih =>
    rw [State.busBytes, ih fun q hq => h q (by omega), h n (by omega), byteLane_toNat, Nat.mul_succ, Nat.pow_add,
      Nat.mod_mul, Nat.mul_comm (2 ^ (8 * n))]

/-- The number a read carries depends on the bytes alone. -/
theorem busBytes_congr {s s' : State} {off n : Nat}
    (h : ∀ q, q < n → s.busByte (s.draws + q) (off + q) = s'.busByte (s'.draws + q) (off + q)) :
    s.busBytes off n = s'.busBytes off n := by
  induction n with
  | zero => rfl
  | succ n ih => rw [State.busBytes, State.busBytes, ih fun q hq => h q (by omega), h n (by omega)]

/-- The number a read of `n` bytes carries has `8n` bits. -/
theorem busBytes_lt (s : State) (off n : Nat) : s.busBytes off n < 2 ^ (8 * n) := by
  induction n with
  | zero => exact Nat.one_pos
  | succ n ih =>
    have hb := (s.busByte (s.draws + n) (off + n)).isLt
    rw [State.busBytes, Nat.mul_succ, Nat.pow_add]
    nlinarith

/-- Byte lane `q` of a read of `n` bytes is byte `off + q`, and the lanes from `n` on are 0 (R68, R70). -/
theorem busBytes_lane (s : State) (off n q : Nat) :
    s.busBytes off n / 2 ^ (8 * q) % 256 = if q < n then (s.busByte (s.draws + q) (off + q)).toNat else 0 := by
  induction n with
  | zero => simp [State.busBytes]
  | succ n ih =>
    have hlt := busBytes_lt s off n
    have hb := (s.busByte (s.draws + n) (off + n)).isLt
    rw [State.busBytes]
    rcases Nat.lt_trichotomy q n with h | h | h
    · obtain ⟨d, rfl⟩ := Nat.exists_eq_add_of_lt h
      have hp : (2 : Nat) ^ (8 * (q + d + 1)) = 2 ^ (8 * q) * (256 * 2 ^ (8 * d)) := by
        rw [show 8 * (q + d + 1) = 8 * q + (8 + 8 * d) by ring, Nat.pow_add, Nat.pow_add]
      rw [if_pos h] at ih
      rw [if_pos (by omega), hp, Nat.mul_left_comm, Nat.add_mul_div_left _ _ (Nat.two_pow_pos _), Nat.mul_left_comm,
        Nat.add_mul_mod_self_left, ih]
    · subst h
      rw [if_pos (by omega), Nat.add_mul_div_right _ _ (Nat.two_pow_pos _), Nat.div_eq_of_lt hlt, Nat.zero_add,
        Nat.mod_eq_of_lt hb]
    · have hs := busBytes_lt s off (n + 1)
      rw [State.busBytes] at hs
      have hle : (2 : Nat) ^ (8 * (n + 1)) ≤ 2 ^ (8 * q) := Nat.pow_le_pow_right (by omega) (by omega)
      rw [if_neg (by omega), Nat.div_eq_of_lt (lt_of_lt_of_le hs hle)]

/-- Byte lane `q` of a legal read outside the register window is byte `off + q`, and the lanes from `n` on are 0 (R68, R70). -/
theorem memRead_lane {s : State} {addr : Word} {n : Nat} (h : 0xFFF < (s.busOffset addr).toNat)
    (hl : windowAccessLegal (s.busOffset addr).toNat n = true) (q : Nat) :
    (memRead addr n s).1.extractLsb' (8 * q) 8 =
      if q < n then s.busByte (s.draws + q) ((s.busOffset addr).toNat + q) else 0 := by
  have hn : n = 1 ∨ n = 2 ∨ n = 4 := (of_decide_eq_true hl).1
  have hlt : s.busBytes (s.busOffset addr).toNat n < 2 ^ 32 :=
    lt_of_lt_of_le (busBytes_lt s _ n) (Nat.pow_le_pow_right (by omega) (by omega))
  apply BitVec.eq_of_toNat_eq
  rw [memRead_window h hl, BitVec.extractLsb'_toNat, BitVec.toNat_ofNat, Nat.mod_eq_of_lt hlt, Nat.shiftRight_eq_div_pow,
    busBytes_lane]
  split <;> rfl

/-- A LUT byte over the bus (R62). -/
theorem busByte_lut {s : State} {a : Nat} (draw : Nat) (h : a ≤ 0xFFFFF) (h' : a < s.lutBytes) :
    s.busByte draw (0x00100000 + a) = (s.lut.read a).getD (Config.freeByte draw) := by
  unfold State.busByte
  rw [windowOf_lut (by omega) (by omega)]
  simp only [Nat.add_sub_cancel_left, h', if_true]

/-- A frame buffer byte over the bus (R62). -/
theorem busByte_frameBuf {s : State} {a : Nat} (draw : Nat) (h : a ≤ 0xFFFFF) (h' : a < s.frameBufBytes) :
    s.busByte draw (0x00200000 + a) = (s.frameBuf.read a).getD (Config.freeByte draw) := by
  unfold State.busByte
  rw [windowOf_frameBuf (by omega) (by omega)]
  simp only [Nat.add_sub_cancel_left, h', if_true]

/-- A raster byte over the bus, outside PROC (R62, R78). -/
theorem busByte_raster {s : State} {a : Nat} (draw : Nat) (h : a ≤ 0xFFFFFF) (h' : a < s.rasterMemBytes)
    (he : s.engine ≠ .proc) :
    s.busByte draw (0x01000000 + a) = (s.raster.read a).getD (Config.freeByte draw) := by
  have ho : s.rasterOpen a = false := by simp [State.rasterOpen, he]
  unfold State.busByte
  rw [windowOf_raster (by omega) (by omega)]
  simp only [Nat.add_sub_cancel_left, h', ho, if_true, Bool.false_eq_true, if_false]

/-- Writing LUT bytes keeps the canonical form. -/
theorem lutWritten_wf (s : State) (h : Memory.wf s.lut) (a : Nat) (v : Word) (n : Nat) :
    Memory.wf (s.lutWritten a v n) := by
  induction n with
  | zero => exact h
  | succ n ih =>
    unfold State.lutWritten
    split
    · exact Memory.wf_write ih _ _
    · exact ih

/-- Writing LUT bytes writes none beyond the size backed (R62). -/
theorem lutWritten_within (s : State) (h : Memory.within s.lut s.lutBytes) (a : Nat) (v : Word) (n : Nat) :
    Memory.within (s.lutWritten a v n) s.lutBytes := by
  induction n with
  | zero => exact h
  | succ n ih =>
    unfold State.lutWritten
    split
    · exact Memory.within_write ih ‹_› _
    · exact ih

end Sys2Proof.Machine
end

