-- ==== Sys2Proof/Laws/Datapath.lean ====
section
/-! SUPPORT. The datapath: the weights, the rounding, the raster of a frame by pixel, and START's checks as one mask. -/

namespace Sys2Proof.Machine

theorem subDivisor_pos (s : State) : 0 < s.subDivisor := by
  unfold State.subDivisor
  omega

theorem weightSum_pos (s : State) : 0 < s.weightSum := Nat.mul_pos (subDivisor_pos s) (subDivisor_pos s)

/-- A sub-cell offset never exceeds the divisor (R146). -/
theorem offset_le_subDivisor {s : State} {r : Nat} (h : r < s.m) : r ≤ s.subDivisor := by
  unfold State.subDivisor
  omega

theorem sampleAt_lt (s : State) (x y : Nat) : s.sampleAt x y < 65536 := (s.sample _).isLt

/-- The four weights add up to `D` (R147). -/
theorem weights_sum {d ri rj : Nat} (hi : ri ≤ d) (hj : rj ≤ d) :
    (d - ri) * (d - rj) + ri * (d - rj) + (d - ri) * rj + ri * rj = d * d := by
  obtain ⟨a, rfl⟩ := Nat.exists_eq_add_of_le hi
  obtain ⟨b, hb⟩ := Nat.exists_eq_add_of_le hj
  have h1 : ri + a - ri = a := by omega
  have h2 : ri + a - rj = b := by omega
  rw [h1, h2]
  calc a * b + ri * b + a * rj + ri * rj = (ri + a) * (rj + b) := by ring
    _ = (ri + a) * (ri + a) := by rw [← hb]

/-- `Bil` is at most `D` times a bound of its four samples. -/
theorem bil_le {s : State} {i j ri rj hi : Nat} (h1 : ri < s.m) (h2 : rj < s.m)
    (h : ∀ dx dy, dx ≤ 1 → dy ≤ 1 → s.sampleAt (i + dx) (j + dy) ≤ hi) : s.bil i j ri rj ≤ s.weightSum * hi := by
  have hw := weights_sum (offset_le_subDivisor h1) (offset_le_subDivisor h2)
  unfold State.bil State.weightSum
  rw [← hw]
  have a := h 0 0 (by omega) (by omega)
  have b := h 1 0 (by omega) (by omega)
  have c := h 0 1 (by omega) (by omega)
  have e := h 1 1 (by omega) (by omega)
  simp only [add_zero] at a b c
  simp only [add_mul]
  gcongr

/-- `Bil` is at least `D` times a bound of its four samples. -/
theorem le_bil {s : State} {i j ri rj lo : Nat} (h1 : ri < s.m) (h2 : rj < s.m)
    (h : ∀ dx dy, dx ≤ 1 → dy ≤ 1 → lo ≤ s.sampleAt (i + dx) (j + dy)) : s.weightSum * lo ≤ s.bil i j ri rj := by
  have hw := weights_sum (offset_le_subDivisor h1) (offset_le_subDivisor h2)
  unfold State.bil State.weightSum
  rw [← hw]
  have a := h 0 0 (by omega) (by omega)
  have b := h 1 0 (by omega) (by omega)
  have c := h 0 1 (by omega) (by omega)
  have e := h 1 1 (by omega) (by omega)
  simp only [add_zero] at a b c
  simp only [add_mul]
  gcongr

/-- Rounding an exact multiple of `D` gives the multiple. -/
theorem roundedIndex_mul (s : State) (v : Nat) : s.roundedIndex (s.weightSum * v) = v := by
  have h := weightSum_pos s
  unfold State.roundedIndex
  rw [← Nat.mul_assoc, Nat.mul_add_div (by omega), Nat.div_eq_of_lt (by omega), Nat.add_zero]

/-- Rounding is monotone. -/
theorem roundedIndex_mono (s : State) {b b' : Nat} (h : b ≤ b') : s.roundedIndex b ≤ s.roundedIndex b' := by
  unfold State.roundedIndex
  exact Nat.div_le_div_right (by omega)

/-- START's mask is 0 exactly when it accepts the configuration (R166). -/
theorem configMask_eq_zero_iff (s : State) : s.configMask = 0 ↔ s.startAccepts := by
  have key : ∀ a b c d e f g h : Bool,
      BitVec.ofBoolListLE [a, b, c, d, e, f, g, h] = (0 : BitVec 8) ↔
        (a = false ∧ b = false ∧ c = false ∧ d = false ∧ e = false ∧ f = false ∧ g = false ∧ h = false) := by
    intro a b c d e f g h
    constructor
    · intro hz
      have bit : ∀ k, [a, b, c, d, e, f, g, h].getD k false = false := by
        intro k
        rw [← BitVec.getLsbD_ofBoolListLE, hz]
        exact BitVec.getLsbD_zero
      exact ⟨bit 0, bit 1, bit 2, bit 3, bit 4, bit 5, bit 6, bit 7⟩
    · rintro ⟨rfl, rfl, rfl, rfl, rfl, rfl, rfl, rfl⟩
      rfl
  unfold State.configMask State.startAccepts
  rw [key]
  simp only [decide_eq_false_iff_not]
  omega

/-- Legal parameters make every backed size fit its window (00_scope.md R9, 20_memory.md R61). -/
theorem legal_bounds {p : Config.Params} (h : p.wellFormed = true) :
    1 ≤ p.lutDepth ∧ p.lutDepth ≤ 65536 ∧ p.maxFrameSamples ≤ 524288 ∧ p.maxRasterPixels ≤ 4194304 := by
  simp only [Config.Params.wellFormed, Bool.and_eq_true, decide_eq_true_eq] at h
  omega

/-- The sizes of an accepted frame (R166): it is not empty, and its bytes and its raster fit what is backed. -/
theorem accepted_bounds {s : State} (hp : s.params.wellFormed = true) (ha : s.startAccepts) :
    0 < s.frameBytes ∧ s.frameBytes ≤ s.frameBufBytes ∧ s.frameBytes < 2 ^ 32 - 1 ∧ s.rasterBytes ≤ s.rasterMemBytes := by
  obtain ⟨h1, h2, h3, h4, h5, h6, h7, h8⟩ := ha
  obtain ⟨_, _, hs, _⟩ := legal_bounds hp
  unfold State.frameBytes State.frameBufBytes State.rasterBytes State.rasterMemBytes State.outW State.outH
  have hfb : 2 * s.width * s.height ≤ 2 * s.params.maxFrameSamples := by nlinarith
  refine ⟨by positivity, hfb, by omega, ?_⟩
  calc 4 * (s.width * s.m) * (s.height * s.m) = 4 * (s.width * s.height * s.m * s.m) := by ring
    _ ≤ _ := by omega

/-- A column or row of an upscaled cell: its cell and its offset. -/
theorem cell_offset {m r a : Nat} (h : r < m) : (a * m + r) / m = a ∧ (a * m + r) % m = r := by
  constructor
  · rw [Nat.mul_comm, Nat.mul_add_div (by omega), Nat.div_eq_of_lt h, Nat.add_zero]
  · rw [Nat.mul_comm, Nat.mul_add_mod, Nat.mod_eq_of_lt h]

/-- The raster index of a pixel gives back its column and row (R65). -/
theorem pixelCoords_index {s : State} {ox oy : Nat} (h : ox < s.outW) :
    s.pixelCoords (oy * s.outW + ox) = (ox, oy) := by
  unfold State.pixelCoords
  rw [Nat.mul_comm, Nat.mul_add_mod, Nat.mod_eq_of_lt h, Nat.mul_add_div (by omega), Nat.div_eq_of_lt h, Nat.add_zero]

theorem pixelIndex_mem_frameIndices {s : State} {ox oy : Nat} (h : ox < s.outW) (h' : oy < s.outH) :
    s.pixelIndex ox oy ∈ s.frameIndices := by
  refine List.mem_map.2 ⟨oy * s.outW + ox, List.mem_range.2 ?_, by rw [pixelCoords_index h]⟩
  nlinarith

/-- The indices of a frame are those of its pixels (R155). -/
theorem mem_frameIndices {s : State} {e : Nat} :
    e ∈ s.frameIndices ↔ ∃ ox oy, ox < s.outW ∧ oy < s.outH ∧ e = s.pixelIndex ox oy := by
  constructor
  · intro h
    obtain ⟨p, hp, rfl⟩ := List.mem_map.1 h
    have hp := List.mem_range.1 hp
    have hw : 0 < s.outW := Nat.pos_of_ne_zero fun h0 => by simp [h0] at hp
    exact ⟨p % s.outW, p / s.outW, Nat.mod_lt _ hw, Nat.div_lt_of_lt_mul hp, rfl⟩
  · rintro ⟨ox, oy, h, h', rfl⟩
    exact pixelIndex_mem_frameIndices h h'

/-- There is an offending index exactly when a pixel has one. -/
theorem badIndices_eq_nil_iff (s : State) :
    s.badIndices = [] ↔ ∀ ox oy, ox < s.outW → oy < s.outH → s.pixelIndex ox oy < s.tableSize := by
  unfold State.badIndices
  rw [List.filter_eq_nil_iff]
  simp only [decide_eq_true_eq, not_le]
  constructor
  · intro h ox oy hx hy
    exact h _ (pixelIndex_mem_frameIndices hx hy)
  · intro h e he
    obtain ⟨ox, oy, hx, hy, rfl⟩ := mem_frameIndices.1 he
    exact h ox oy hx hy

theorem mem_badIndices {s : State} {e : Nat} :
    e ∈ s.badIndices ↔ ∃ ox oy, ox < s.outW ∧ oy < s.outH ∧ e = s.pixelIndex ox oy ∧ s.tableSize ≤ e := by
  unfold State.badIndices
  rw [List.mem_filter, mem_frameIndices]
  simp only [decide_eq_true_eq]
  constructor
  · rintro ⟨⟨ox, oy, h1, h2, h3⟩, h4⟩
    exact ⟨ox, oy, h1, h2, h3, h4⟩
  · rintro ⟨ox, oy, h1, h2, h3, h4⟩
    exact ⟨⟨ox, oy, h1, h2, h3⟩, h4⟩

/-- The index recorded is one of the offending ones (R155, I3). -/
theorem pickBad_mem {bad : List Nat} (h : bad ≠ []) (d : Nat) : pickBad d bad ∈ bad := by
  have hl : 0 < bad.length := List.length_pos_iff.2 h
  have hi : Config.freeChoice d % bad.length < bad.length := Nat.mod_lt _ hl
  unfold pickBad
  rw [List.getD_eq_getElem _ _ hi]
  exact List.getElem_mem hi

/-- Byte `c` of the pixel at `(ox, oy)`, as the frame writes it (R153). -/
theorem rasterByte_pixel {s : State} {ox oy c : Nat} (hx : ox < s.outW) (hc : c < 4)
    (hi : s.pixelIndex ox oy < s.tableSize) :
    s.rasterByte (4 * (oy * s.outW + ox) + c) =
      (s.lutEntry (s.draws + 4 * (oy * s.outW + ox)) (s.pixelIndex ox oy)).channel c := by
  have hp : (4 * (oy * s.outW + ox) + c) / 4 = oy * s.outW + ox := by omega
  have hm : (4 * (oy * s.outW + ox) + c) % 4 = c := by omega
  unfold State.rasterByte
  simp only [hp, hm, pixelCoords_index hx]
  unfold State.pix
  simp only [Nat.not_le.2 hi, if_false]

end Sys2Proof.Machine
end

