-- ==== Sys2Proof/Laws/Encoding.lean ====
section
/-! SUPPORT. The fields of a token: reading them from `(KIND, DATA)`, and a token from its fields. -/

namespace Sys2Proof

@[simp] theorem tokenKind_tokenOf (kind : Bool) (data : Byte) : tokenKind (tokenOf kind data) = kind := by
  show (BitVec.ofBool kind ++ data : BitVec (1 + 8)).getLsbD 8 = kind
  rw [BitVec.getLsbD_append, if_neg (by omega)]
  cases kind <;> rfl

@[simp] theorem tokenData_tokenOf (kind : Bool) (data : Byte) : tokenData (tokenOf kind data) = data := by
  apply BitVec.eq_of_getLsbD_eq
  intro k hk
  show ((BitVec.ofBool kind ++ data : BitVec (1 + 8)).extractLsb' 0 8).getLsbD k = data.getLsbD k
  rw [BitVec.getLsbD_extractLsb', BitVec.getLsbD_append, Nat.zero_add, if_pos hk]
  simp [hk]

/-- A token is its two fields (R94). -/
theorem tokenOf_fields (t : Token) : tokenOf (tokenKind t) (tokenData t) = t := by
  apply BitVec.eq_of_getLsbD_eq
  intro k hk
  show (BitVec.ofBool (tokenKind t) ++ tokenData t : BitVec (1 + 8)).getLsbD k = t.getLsbD k
  rw [BitVec.getLsbD_append]
  by_cases h : k < 8
  · simp [h, tokenData]
  · have h8 : k = 8 := by omega
    subst h8
    simp [tokenKind]

/-- The number a token is (R98: what ERRINFO holds of it). -/
theorem tokenOf_toNat (kind : Bool) (data : Byte) : (tokenOf kind data).toNat = 256 * kind.toNat + data.toNat := by
  show (BitVec.ofBool kind ++ data : BitVec (1 + 8)).toNat = _
  rw [BitVec.toNat_append, ← Nat.shiftLeft_add_eq_or_of_lt data.isLt, Nat.shiftLeft_eq]
  cases kind <;> simp

end Sys2Proof
end

