-- ==== Sys2Proof/Laws/PerInstr.lean ====
section
/-! SUPPORT. One family, instruction by instruction: the bytes an instruction is stored as are read back as its own beat,
and that beat decodes to it if it is well formed (30_encoding.md R91, R94). -/

namespace Sys2Proof.Laws.EncodedBytes

/-- The bytes of an instruction give back its beat, and its decoding if it is well formed. -/
def Statement (i : Instr) : Prop :=
  beatOfBytes (encodeBytes i) = .ok (encode i) ∧ (i.wellFormed = true → decodeBytes (encodeBytes i) = .ok i)

/-- A token's two bytes are read back as the token. -/
theorem beatOfBytes_token (t : Token) : beatOfBytes (bytesOfBeat (.token t)) = .ok (.token t) := by
  have hi : ((t.extractLsb' 8 1).setWidth 8).toNat < 2 := by
    rw [BitVec.toNat_setWidth]
    have := (t.extractLsb' 8 1).isLt
    omega
  simp only [bytesOfBeat, beatOfBytes, hi, if_true]
  congr 2
  apply BitVec.eq_of_getLsbD_eq
  intro k hk
  show (((t.extractLsb' 8 1).setWidth 8).extractLsb' 0 1 ++ t.extractLsb' 0 8 : BitVec (1 + 8)).getLsbD k = t.getLsbD k
  rw [BitVec.getLsbD_append]
  by_cases h : k < 8
  · simp [h]
  · have h8 : k = 8 := by omega
    subst h8
    simp

theorem nop : Statement .nop := ⟨by decide, fun _ => by decide⟩

theorem start : Statement .start := ⟨by decide, fun _ => by decide⟩

theorem release : Statement .release := ⟨by decide, fun _ => by decide⟩

theorem reset : Statement .reset := ⟨by decide, fun _ => by decide⟩

theorem byte (b : Byte) : Statement (.byte b) := by
  refine ⟨beatOfBytes_token _, fun _ => ?_⟩
  simp only [decodeBytes, encodeBytes, encode, beatOfBytes_token, decode, decodeToken, tokenKind_tokenOf,
    tokenData_tokenOf, if_true]

theorem endOfStream : Statement .endOfStream := ⟨by decide, fun _ => by decide⟩

theorem reservedToken (data : Byte) : Statement (.reservedToken data) := by
  refine ⟨beatOfBytes_token _, fun h => ?_⟩
  have hd : ¬ data = 0 := of_decide_eq_true h
  simp only [decodeBytes, encodeBytes, encode, beatOfBytes_token, decode, decodeToken, tokenKind_tokenOf,
    tokenData_tokenOf, hd, if_false, Bool.true_eq_false]

theorem processFrame : Statement .processFrame := ⟨by decide, fun _ => by decide⟩

end Sys2Proof.Laws.EncodedBytes
end

