-- ==== Sys2Proof/Tests/Slice0.lean ====
section
/-! SUPPORT. Tests: the checks of WellFormed, words written out from the encoding tables, the derived vectors of
95_test_vectors.md (the number of a vector stands before its test), and for each obligation with hypotheses a witness: a
state and operands that meet them all. -/

namespace Sys2Proof.Tests

/- One theorem after another: each `decide +kernel` waits for the kernel in a thread of its own, and all at once they would be
too many. -/
set_option Elab.async false

open Sys2Proof.Machine
open Sys2Proof.Config (Params)

/-- The state an outcome goes on with. -/
def nextOf (o : Host.Outcome State Fault Refusal) : Option State :=
  match o with
  | .next s => some s
  | .fault _ => none
  | .refused _ => none

/-- The start states of the vectors: reset, with a configuration and an ENGINE state. -/
def cfg (w h : BitVec 16) (m : BitVec 8) (t : BitVec 17) (e : EngineState) : State :=
  { State.reset with frameW := w, frameH := h, mag := m, lutSize := t, engine := e }

/-- A frame buffer holding samples, low byte first. -/
def samples (l : List (BitVec 16)) : Memory :=
  (List.range l.length).flatMap fun k =>
    [(2 * k, (l.getD k 0).extractLsb' 0 8), (2 * k + 1, (l.getD k 0).extractLsb' 8 8)]

/-- ENGINE state, ERRINFO and the STATUS word after an outcome. -/
def seen (o : Host.Outcome State Fault Refusal) : Option (EngineState × Word × Word) :=
  (nextOf o).map fun s => (s.engine, s.errInfo, s.status)

/-! WellFormed: an ill-formed term for each check. -/

theorem test_wellFormed_refuses_reserved_zero : (Instr.reservedToken 0).wellFormed = false := by decide

theorem test_wellFormed_accepts_reserved : (Instr.reservedToken 1).wellFormed = true := by decide

theorem test_params_reference : Params.reference.wellFormed = true := by decide

theorem test_params_refuse :
    ({ Params.reference with lutDepth := 0 } : Params).wellFormed = false ∧
    ({ Params.reference with lutDepth := 65537 } : Params).wellFormed = false ∧
    ({ Params.reference with maxMag := 0 } : Params).wellFormed = false ∧
    ({ Params.reference with maxMag := 256 } : Params).wellFormed = false ∧
    ({ Params.reference with maxFrameSamples := 0 } : Params).wellFormed = false ∧
    ({ Params.reference with maxFrameSamples := 524289 } : Params).wellFormed = false ∧
    ({ Params.reference with maxRasterPixels := 0 } : Params).wellFormed = false ∧
    ({ Params.reference with maxRasterPixels := 4194305 } : Params).wellFormed = false ∧
    ({ Params.reference with base := 0x00100000 } : Params).wellFormed = false := by decide

/-! Words from the tables of 30_encoding.md R92 and R94, through the table's numbering of the bits. -/

theorem test_word_nop : decodeTableWord 32 0x00000000 = some .nop := by decide

theorem test_word_start : decodeTableWord 32 0x00000001 = some .start := by decide

theorem test_word_release : decodeTableWord 32 0x00000002 = some .release := by decide

theorem test_word_reset : decodeTableWord 32 0x00000003 = some .reset := by decide

theorem test_word_illegal :
    decodeTableWord 32 0x00000004 = none ∧ decodeTableWord 32 0x00000101 = none ∧
    decodeTableWord 32 0x80000000 = none := by decide

theorem test_word_byte : decodeTableWord 16 0b0_0001_0010 = some (.byte 0x12) := by decide

theorem test_word_end : decodeTableWord 16 0b1_0000_0000 = some .endOfStream := by decide

theorem test_word_reserved : decodeTableWord 16 0b1_0000_0101 = some (.reservedToken 0x05) := by decide

theorem test_word_too_long : decodeTableWord 16 0b10_0000_0000 = none := by decide

theorem test_word_process_frame : decodeTableWord 0 0 = some .processFrame := by decide

/-- A word placed for the next step runs as the first instruction after reset. -/
theorem test_step_first_command :
    seen (step (State.reset.withFetchWord 32 0x00000001)) = some (.error, 0x00000003, 0x00000325) := by decide +kernel

theorem test_step_first_token :
    seen (step (State.reset.withFetchWord 16 0b1_0000_0000)) = some (.done, 0, 0x00000014) := by decide +kernel

theorem test_step_first_engine_step :
    seen (step (State.reset.withFetchWord 0 0)) = some (.hold, 0, 0x0000000B) := by decide +kernel

/-! Commands: 95_test_vectors.md T2.C. -/

/-- C1. -/
theorem test_nop :
    (nextOf (exec .nop { cfg 4 3 1 65536 .run with inCount := 5 })).map (fun s => (s.engine, s.inCount)) =
      some (.run, 5) := by decide

/-- C5: bits 3, 4, 5 and 7. -/
theorem test_start_mask :
    seen (exec .start (cfg 300 300 17 65537 .idle)) = some (.error, 0x000000B8, 0x00000325) := by decide +kernel

/-- C7 and C8. -/
theorem test_start :
    seen (exec .start (cfg 2 1 3 4 .idle)) = some (.run, 0, 0x00000001) ∧
    seen (exec .start (cfg 2 1 3 4 .run)) = some (.error, 0x00000101, 0x00000225) := by decide +kernel

/-- C10. -/
theorem test_release :
    (nextOf (exec .release { cfg 2 1 3 4 .hold with frameSeq := 1, inCount := 4 })).map
      (fun s => (s.engine, s.inCount, s.frameSeq, s.status)) = some (.run, 0, 1, 0x00000001) := by decide +kernel

/-- C11. -/
theorem test_release_in_done :
    seen (exec .release (cfg 2 1 3 4 .done)) = some (.error, 0x00000402, 0x00000225) := by decide +kernel

/-- C12. -/
theorem test_reset :
    (nextOf (exec .reset { cfg 2 1 3 4 .error with errCode := .lutRange, irqEn := 4 })).map
      (fun s => (s.engine, s.status, s.width, s.irqEn)) = some (.idle, 0, 2, 4) := by decide +kernel

/-- C17: the raster bytes below `4·6·3` have some value, and no other has. -/
theorem test_reset_in_proc :
    (nextOf (exec .reset (cfg 2 1 3 4 .proc))).map
      (fun s => ((s.raster.read 71).isSome, (s.raster.read 72).isSome)) = some (true, false) := by decide +kernel

/-! Tokens: T2.R. -/

/-- R1. -/
theorem test_byte :
    (nextOf (exec (.byte 0x12) { cfg 2 1 1 4 .run with inCount := 3 })).map
      (fun s => (s.engine, s.inCount, s.frameBuf.read 3, s.status)) =
      some (.proc, 4, some 0x12, 0x00000042) := by decide +kernel

/-- R5. -/
theorem test_bytes_low_first :
    (nextOf (execAll [.byte 0x34, .byte 0x12, .byte 0xFF, .byte 0xFF] (cfg 2 1 1 4 .run))).map
      (fun s => (s.sample 0, s.sample 1)) = some (0x1234, 0xFFFF) := by decide +kernel

/-- R2. -/
theorem test_end :
    (nextOf (exec .endOfStream { cfg 2 1 1 4 .run with inCount := 3, frameSeq := 1 })).map
      (fun s => (s.status, s.inCount, s.frameSeq)) = some (0x00000014, 3, 1) := by decide +kernel

/-- R4. -/
theorem test_reserved :
    seen (exec (decodeToken 0x105) (cfg 2 1 1 4 .run)) = some (.error, 0x00000105, 0x00000725) := by decide +kernel

/-! PROCESS_FRAME and the datapath: T2.U. -/

/-- U10 and U6: one row each. -/
theorem test_index_rounding :
    (List.range 6).map (({ cfg 2 1 3 4 .proc with frameBuf := samples [0, 3] } : State).pixelIndex · 0) =
      [0, 2, 3, 3, 3, 3] ∧
    (List.range 6).map (({ cfg 2 1 3 4 .proc with frameBuf := samples [0, 1] } : State).pixelIndex · 0) =
      [0, 1, 1, 1, 1, 1] := by decide +kernel

/-- U3: row 1 of the 2 by 2 frame at `m = 4`. -/
theorem test_index_blend :
    (List.range 8).map (({ cfg 2 2 4 16 .proc with frameBuf := samples [0, 4, 8, 12] } : State).pixelIndex · 1) =
      [3, 4, 5, 7, 7, 7, 7, 7] := by decide +kernel

/-- U11: the only offending index is 5, and ERR_EN sets STATUS.IRQ. -/
theorem test_lut_range :
    ({ cfg 1 1 1 2 .proc with frameBuf := samples [5], irqEn := 4 } : State).badIndices = [5] ∧
    (nextOf (exec .processFrame { cfg 1 1 1 2 .proc with frameBuf := samples [5], irqEn := 4 })).map
      (fun s => (s.engine, s.status, s.frameSeq)) = some (.error, 0x000006A5, 0) := by decide +kernel

/-- U12: the last entry is legal; the raster pixel is R, G, B, 255. -/
theorem test_process_frame :
    (nextOf (exec .processFrame
      { cfg 1 1 1 4 .proc with frameBuf := samples [3], lut := [(9, 1), (10, 2), (11, 3)] })).map
      (fun s => (s.engine, s.frameSeq, s.raster, s.unwrittenLutRead)) =
      some (.hold, 1, [(0, 1), (1, 2), (2, 3), (3, 255)], false) := by decide +kernel

/-! The bus: T2.E. -/

/-- E1 and E2. -/
theorem test_write_active :
    seen (memWrite 0x18 4 5 (cfg 2 1 2 4 .run)) = some (.error, 0x00000018, 0x00000425) ∧
    seen (memWrite 0x00100000 1 5 (cfg 2 1 2 4 .run)) = some (.error, 0x00100000, 0x00000425) := by decide +kernel

/-- E3 and E18. -/
theorem test_bus_align :
    ((memRead 0x00200001 2 (cfg 2 1 2 4 .run)).1, (memRead 0x00200001 2 (cfg 2 1 2 4 .run)).2.errInfo) =
      (0, 0x00200001) ∧
    (memRead 0x00200001 2 { cfg 2 1 2 4 .error with errCode := .writeActive }).2.errCode = .writeActive := by
  decide +kernel

/-- E13. -/
theorem test_read_little_endian :
    (memRead 0x00100002 2 { cfg 2 1 2 4 .idle with lut := [(0, 0x0A), (1, 0x14), (2, 0x1E), (3, 0x28)] }).1 =
      0x0000281E := by decide +kernel

/-- E14, E16 and E17. -/
theorem test_irq :
    ({ cfg 2 1 2 4 .hold with irqEn := 1 } : State).irq = true ∧
    ({ cfg 2 1 2 4 .done with irqEn := 1 } : State).irq = false ∧
    ({ cfg 2 1 2 4 .done with irqEn := 2 } : State).irq = true := by decide

/-! BUILD: T2.B. -/

/-- B1, the whole file. -/
theorem test_build :
    (match buildLut [⟨0, 0, 0, 0⟩, ⟨255, 255, 255, 500⟩] 5 with
      | .ok bytes => bytes
      | .error _ => []) =
      [0x00, 0x00, 0x00, 0x00, 0x00, 0x00, 0x7A, 0x7A, 0x7A, 0xFC, 0xFC, 0xFC, 0xFF, 0xFF, 0xFF] := by decide +kernel

/-- B7: a tie rounds up; B8: out-of-order stops. -/
theorem test_build_entries :
    lutEntryBytes [⟨0, 0, 0, 2185 / 100⟩, ⟨253, 1, 255, 2235 / 100⟩] 65536 18896 = [127, 1, 128] ∧
    lutEntryBytes [⟨10, 10, 10, 0⟩, ⟨200, 0, 0, -100⟩, ⟨0, 200, 0, 100⟩] 65536 17536 = [99, 101, 0] := by
  decide +kernel

/-! Witnesses: the hypotheses of the obligations can be met together. -/

/-- A state in HOLD that meets the invariant and shows its frame: one pixel, sample 1, entry `(10, 20, 30)`. -/
def held : State :=
  { cfg 1 1 1 4 .hold with
    frameSeq := 1
    inCount := 2
    frameBuf := [(0, 1), (1, 0)]
    lut := [(3, 10), (4, 20), (5, 30)]
    raster := [(0, 10), (1, 20), (2, 30), (3, 255)]
    schedule := [.agent .host]
    hostOps := [.write 0x04 4 0x00000002] }

theorem test_held_inv : held.Inv where
  paramsLegal := by decide
  lutWf := by decide
  frameBufWf := by decide
  rasterWf := by decide
  lutWithin := by decide
  frameBufWithin := by decide
  rasterWithin := by decide
  errorRecorded := by decide
  noInfo := fun _ => rfl
  idleCleared := fun h => absurd h (by decide)
  configAccepted := fun _ => by decide
  countPartial := fun h => absurd h (by decide)
  countFull := fun _ => by decide
  received := fun a h => by
    have h2 : a < 2 := h
    have : a = 0 ∨ a = 1 := by omega
    rcases this with rfl | rfl <;> decide

theorem test_held_shows_frame : held.holdShowsFrame := by
  intro _ ox oy hx hy
  have h1 : ox < 1 := hx
  have h2 : oy < 1 := hy
  obtain rfl : ox = 0 := by omega
  obtain rfl : oy = 0 := by omega
  have hi : held.pixelIndex 0 0 = 1 := by decide
  rw [hi]
  refine ⟨by decide, fun c hc b hb => ?_, by decide⟩
  have : c = 0 ∨ c = 1 ∨ c = 2 := by omega
  rcases this with rfl | rfl | rfl <;> exact hb

/-- DecodeInvertsEncode, at the two ends of the reserved tokens. -/
theorem witness_DecodeInvertsEncode :
    decode (.token 0x101) = .ok (.reservedToken 1) ∧ (Instr.reservedToken 1).wellFormed = true ∧
    encode (.reservedToken 1) = .token 0x101 ∧
    decode (.token 0x1FF) = .ok (.reservedToken 0xFF) ∧ encode (.reservedToken 0xFF) = .token 0x1FF := by decide

/-- TokensDecodeByKind, each clause at its ends. -/
theorem witness_TokensDecodeByKind :
    (0x000#9).getLsbD 8 = false ∧ (0x0FF#9).getLsbD 8 = false ∧
    (0x101#9).getLsbD 8 = true ∧ (0x101#9).extractLsb' 0 8 ≠ 0 ∧
    (0x1FF#9).getLsbD 8 = true ∧ (0x1FF#9).extractLsb' 0 8 ≠ 0 := by decide

/-- CommandWritesDecode: the first word no command has. -/
theorem witness_CommandWritesDecode : (0x00000004 : Word) ≠ 0 ∧ (0x00000004 : Word) ≠ 1 ∧ (0x00000004 : Word) ≠ 2 ∧
    (0x00000004 : Word) ≠ 3 := by decide

/-- StepRunsDecodedInstruction: a command, the first word no command has, a bus write, a bus read, an empty queue, a token, the
ENGINE step, and in RUN a SOURCE that offers no token and the ENGINE. -/
theorem witness_StepRunsDecodedInstruction :
    (held.schedule = [.agent .host] ∧ held.hostOps = [.write (held.regAddr .cmd) 4 0x00000002] ∧
      decode (.cmd 0x00000002) = .ok .release) ∧
    decode (.cmd 0x00000004) = .error (.illegalCommand 0x00000004) ∧
    seen (step { held with hostOps := [.write 0x04 4 0x00000004] }) = some (.error, 0x00000004, 0x00000125) ∧
    (nextOf (step { held with hostOps := [.write 0x20 4 0x00000007] })).map (fun s => (s.irqEn, s.hostOps)) =
      some (7, []) ∧
    (nextOf (step { held with hostOps := [.read 0x00100003 1] })).map (fun s => (s.hostLog, s.hostOps)) =
      some ([10], []) ∧
    ({ held with hostOps := [] } : State).hostOps = [] ∧
    (({ cfg 2 1 1 4 .run with stream := [0x012], schedule := [.agent .source] } : State).engine = .run ∧
      decode (.token 0x012) = .ok (.byte 0x12)) ∧
    (({ cfg 2 1 1 4 .proc with schedule := [.agent .engine] } : State).engine = .proc ∧
      decode .engineStep = .ok .processFrame) ∧
    (nextOf (step { cfg 2 1 1 4 .run with inCount := 3, schedule := [.agent .source] })).map
      (fun s => (s.engine, s.inCount, s.schedule)) = some (.run, 3, []) ∧
    (nextOf (step { cfg 2 1 1 4 .run with inCount := 3, schedule := [.agent .engine] })).map
      (fun s => (s.engine, s.inCount, s.schedule)) = some (.run, 3, []) := by decide +kernel

/-- TokensWaitOutsideRun: a token offered in IDLE (T2.R7) and one in RUN. -/
theorem witness_TokensWaitOutsideRun :
    (nextOf (step { cfg 2 1 1 4 .idle with stream := [0x012], schedule := [.agent .source] })).map
      (fun s => (s.stream, s.inCount)) = some ([0x012], 0) ∧
    (nextOf (step { cfg 2 1 1 4 .run with stream := [0x012], schedule := [.agent .source] })).map
      (fun s => (s.stream, s.inCount)) = some ([], 1) := by decide +kernel

/-- StreamKeepsOrder and the statements about any step: a step of each agent answers a next state, that of the SOURCE having
run the token it took. -/
theorem witness_steps :
    (nextOf (step held)).map (fun s => s.engine) = some .run ∧
    (nextOf (step { cfg 2 1 1 4 .run with stream := [0x012, 0x034], schedule := [.agent .source] })).map
      (fun s => (s.stream, s.inCount, s.frameBuf)) = some ([0x034], 1, [(0, 0x12)]) ∧
    (nextOf (step { held with engine := .proc, schedule := [.agent .engine] })).map
      (fun s => (s.engine, s.frameSeq)) = some (.hold, 2) := by decide +kernel

/-- StartRule: ERROR, neither IDLE nor ERROR, IDLE with each outcome of the checks, at the bounds of MAG and LUT_SIZE. -/
theorem witness_StartRule :
    (cfg 1 1 1 4 .error).engine = .error ∧ (held.engine ≠ .error ∧ held.engine ≠ .idle) ∧
    ((cfg 1 1 16 65536 .idle).engine = .idle ∧ (cfg 1 1 16 65536 .idle).startAccepts) ∧
    ((cfg 1 1 17 65536 .idle).engine = .idle ∧ ¬ (cfg 1 1 17 65536 .idle).startAccepts) ∧
    ¬ (cfg 1 1 16 65537 .idle).startAccepts := by
  unfold State.startAccepts
  decide

/-- ReleaseRule: its three clauses. -/
theorem witness_ReleaseRule :
    held.engine = .hold ∧ ((cfg 1 1 1 4 .run).engine ≠ .hold ∧ (cfg 1 1 1 4 .run).engine ≠ .error) ∧
    (cfg 1 1 1 4 .error).engine = .error := by decide

/-- ResetRule: outside PROC, and in PROC with an address at each side of the frame's raster. -/
theorem witness_ResetRule :
    held.engine ≠ .proc ∧ (cfg 2 1 3 4 .proc).engine = .proc ∧ 71 < (cfg 2 1 3 4 .proc).rasterBytes ∧
    (cfg 2 1 3 4 .proc).rasterBytes ≤ 72 := by decide

/-- FirstErrorIsKept: its clauses. -/
theorem witness_FirstErrorIsKept :
    held.engine ≠ .error ∧ (cfg 1 1 1 4 .error).engine = .error ∧ Instr.start ≠ .reset ∧
    ¬ ((0x04 : Word) = (cfg 1 1 1 4 .error).regAddr .cmd ∧ (0x00000004 : Word) = 0x00000003) ∧
    (0x04 : Word) ≠ (cfg 1 1 1 4 .error).regAddr .irqEn := by decide

/-- ByteRule, EndRule, ReservedTokenRule: RUN, with the byte that completes a frame and one that does not. -/
theorem witness_token_rules :
    (cfg 2 1 1 4 .run).engine = .run ∧
    (({ cfg 2 1 1 4 .run with inCount := 3 } : State).inCount + 1).toNat =
      2 * (cfg 2 1 1 4 .run).width * (cfg 2 1 1 4 .run).height ∧
    ((cfg 2 1 1 4 .run).inCount + 1).toNat ≠ 2 * (cfg 2 1 1 4 .run).width * (cfg 2 1 1 4 .run).height := by decide

/-- ProcessFramePublishes: every index in the table, the greatest being its last entry (U12). -/
theorem witness_ProcessFramePublishes :
    ({ cfg 2 1 3 4 .proc with frameBuf := samples [0, 3] } : State).engine = .proc ∧
    ∀ ox, ox < 6 → ∀ oy, oy < 3 →
      ({ cfg 2 1 3 4 .proc with frameBuf := samples [0, 3] } : State).pixelIndex ox oy < 4 := by decide +kernel

/-- ProcessFrameLutRange: the least index beyond the table. -/
theorem witness_ProcessFrameLutRange :
    ({ cfg 1 1 1 3 .proc with frameBuf := samples [3] } : State).engine = .proc ∧
    0 < ({ cfg 1 1 1 3 .proc with frameBuf := samples [3] } : State).outW ∧
    0 < ({ cfg 1 1 1 3 .proc with frameBuf := samples [3] } : State).outH ∧
    ({ cfg 1 1 1 3 .proc with frameBuf := samples [3] } : State).tableSize ≤
      ({ cfg 1 1 1 3 .proc with frameBuf := samples [3] } : State).pixelIndex 0 0 := by decide +kernel

/-- UnwrittenLutReadRecorded (E19). -/
theorem witness_UnwrittenLutReadRecorded :
    (nextOf (exec .processFrame { cfg 1 1 1 4 .proc with frameBuf := samples [0] })).map
      (fun s => (s.engine, s.unwrittenLutRead)) = some (.hold, true) := by decide +kernel

/-- InstructionMemoryFrame and InstructionRegisterFrame: a storing instruction goes on, and an address it does not store to. -/
theorem witness_frames :
    (nextOf (exec (.byte 7) { cfg 2 1 1 4 .run with inCount := 1, frameBuf := [(0, 9)] })).map
      (fun s => (s.frameBuf.read 0, s.frameBuf.read 1, s.frameSeq)) = some (some 9, some 7, 0) ∧
    (0 : Nat) ≠ ({ cfg 2 1 1 4 .run with inCount := 1 } : State).inCount.toNat := by decide +kernel

/-- StepKeepsInvariant, StepKeepsHoldShowsFrame, ConfigurationAndLutConstantDuringRun, RasterWrittenOnlyInProc. -/
theorem witness_step_invariants :
    held.Inv ∧ held.holdShowsFrame ∧ held.engine ≠ .idle ∧ held.engine ≠ .proc ∧
    held.schedule.head? ≠ some .rst ∧ (nextOf (step held)).isSome = true :=
  ⟨test_held_inv, test_held_shows_frame, by decide, by decide, by decide, by decide +kernel⟩

/-- ErrorLeftOnlyByReset, ModelFaultNeverCleared: in ERROR with a model fault recorded, a RESET command, the reset input, and
a START, which stays. -/
theorem witness_error_steps :
    (nextOf (step { cfg 1 1 1 4 .error with
      errCode := .lutRange, errInfo := 9, unwrittenLutRead := true, schedule := [.agent .host],
      hostOps := [.write 0x04 4 0x00000003] })).map (fun s => (s.engine, s.errInfo, s.unwrittenLutRead)) =
      some (.idle, 0, true) ∧
    (nextOf (step { cfg 1 1 1 4 .error with
      errCode := .lutRange, errInfo := 9, unwrittenLutRead := true, schedule := [.rst] })).map
      (fun s => (s.engine, s.errInfo, s.unwrittenLutRead)) = some (.idle, 0, true) ∧
    (nextOf (step { cfg 1 1 1 4 .error with
      errCode := .lutRange, errInfo := 9, unwrittenLutRead := true, schedule := [.agent .host],
      hostOps := [.write 0x04 4 0x00000001] })).map
      (fun s => (s.engine, s.errCode, s.errInfo, s.unwrittenLutRead)) = some (.error, .lutRange, 9, true) := by
  decide +kernel

/-- FrameSeqCountsFrames: PROC to HOLD, with the counter at its greatest value. -/
theorem witness_FrameSeqCountsFrames :
    (nextOf (step { held with engine := .proc, frameSeq := 0xFFFFFFFF, schedule := [.agent .engine] })).map
      (fun s => (s.engine, s.frameSeq)) = some (.hold, 0) := by decide +kernel

/-- IndexRoundsHalfUp, BilIsWeightedMean, IndexBetweenSamples: the greatest offset of a cell at `m = 3`. -/
theorem witness_datapath :
    1 ≤ (cfg 2 1 3 4 .proc).m ∧ 2 < (cfg 2 1 3 4 .proc).m ∧
    ∀ dx, dx ≤ 1 → ∀ dy, dy ≤ 1 →
      0 ≤ ({ cfg 2 1 3 4 .proc with frameBuf := samples [0, 3] } : State).sampleAt (0 + dx) (0 + dy) ∧
      ({ cfg 2 1 3 4 .proc with frameBuf := samples [0, 3] } : State).sampleAt (0 + dx) (0 + dy) ≤ 3 := by
  decide +kernel

/-- MagOneIsIdentity, MagTwoDoesNotBlend, DuplicatedColumnsAndRows: the magnifications and a last pixel. -/
theorem witness_magnifications :
    ((cfg 2 2 1 4 .proc).m = 1 ∧ 1 < (cfg 2 2 1 4 .proc).outW ∧ 1 < (cfg 2 2 1 4 .proc).outH) ∧
    (({ cfg 2 2 1 4 .proc with frameBuf := samples [3, 0, 1, 2] } : State).sample (1 * 2 + 1)).toNat < 4 ∧
    ((cfg 3 2 2 4 .proc).m = 2 ∧ 2 < (cfg 3 2 2 4 .proc).width ∧ 1 < (cfg 3 2 2 4 .proc).height) ∧
    (2 ≤ (cfg 3 2 2 4 .proc).m ∧ 1 + 1 < (cfg 3 2 2 4 .proc).width ∧ 0 + 1 < (cfg 3 2 2 4 .proc).height) := by
  decide +kernel

/-- SolidFrameIsSolid (U7). -/
theorem witness_SolidFrameIsSolid :
    (∀ k, k < 4 → (({ cfg 2 2 3 65536 .proc with
      frameBuf := samples [65535, 65535, 65535, 65535] } : State).sample k).toNat = 65535) ∧
    5 < (cfg 2 2 3 65536 .proc).outW ∧ 5 < (cfg 2 2 3 65536 .proc).outH := by decide +kernel

/-- EveryPixelVisitedOnce: the last column, the greatest offset of a cell, the last pixel, and the alpha byte of a pixel in the
table. -/
theorem witness_EveryPixelVisitedOnce :
    5 < (cfg 2 2 3 4 .proc).outW ∧ 2 < (cfg 2 2 3 4 .proc).m ∧
    35 < (cfg 2 2 3 4 .proc).outW * (cfg 2 2 3 4 .proc).outH ∧ 5 * (cfg 2 2 3 4 .proc).outW + 5 = 35 ∧
    5 < (cfg 2 2 3 4 .proc).outH ∧
    ({ cfg 2 2 3 4 .proc with frameBuf := samples [0, 1, 2, 3] } : State).pixelIndex 5 5 < 4 := by decide +kernel

/-- ReadOnlyAndUnmappedRegisters: the first and the last unmapped offset. -/
theorem witness_ReadOnlyAndUnmappedRegisters :
    Reg.outH ∈ [Reg.id, .status, .errInfo, .frameSeq, .inCount, .outW, .outH] ∧ 0x34 % 4 = 0 ∧ 0xFFC % 4 = 0 := by
  decide

/-- ConfigurationWrites: IDLE, and not IDLE. -/
theorem witness_ConfigurationWrites :
    (cfg 1 1 1 4 .idle).engine = .idle ∧ held.engine ≠ .idle ∧
    Reg.lutSize ∈ [Reg.frameW, .frameH, .mag, .lutSize] := by decide

/-- IllegalAccessRaisesBusAlign: the ends of the register window and of the memory windows. -/
theorem witness_IllegalAccessRaisesBusAlign :
    ((held.busOffset 0x00000FFC).toNat ≤ 0xFFF ∧ (2 : Nat) ≠ 4) ∧
    ((held.busOffset 0x00000FFF).toNat ≤ 0xFFF ∧ (held.busOffset 0x00000FFF).toNat % 4 ≠ 0) ∧
    (0xFFF < (held.busOffset 0x00001000).toNat ∧ ¬ ((3 : Nat) = 1 ∨ (3 : Nat) = 2 ∨ (3 : Nat) = 4)) ∧
    (0xFFF < (held.busOffset 0xFFFFFFFF).toNat ∧ (held.busOffset 0xFFFFFFFF).toNat % 2 ≠ 0) := by decide

/-- LutWindowWrites: the first and the last byte of the window, the last byte backed, four bytes of which three are backed, and
the ends of the window outside IDLE. -/
theorem witness_LutWindowWrites :
    State.reset.params.wellFormed = true ∧ State.reset.engine = .idle ∧
    (0 % 4 = 0 ∧ 0 + 4 ≤ 3 * State.reset.params.lutDepth) ∧
    (196607 % 1 = 0 ∧ 196607 + 1 ≤ 3 * State.reset.params.lutDepth) ∧ 0xFFFFF % 1 = 0 ∧
    (nextOf (memWrite 0x00100000 4 0x44332211 (State.powerOn { Params.reference with lutDepth := 1 }))).map
      (fun s => (s.lut, (memRead 0x00100000 4 s).1)) = some ([(0, 0x11), (1, 0x22), (2, 0x33)], 0x00332211) ∧
    held.engine ≠ .idle ∧
    (0x00100000 ≤ (held.busOffset 0x00100000).toNat ∧ (held.busOffset 0x001FFFFF).toNat ≤ 0x001FFFFF ∧
      (held.busOffset 0x00100000).toNat % 4 = 0 ∧ (held.busOffset 0x001FFFFF).toNat % 1 = 0) := by decide +kernel

/-- UnmappedBytesAndReadOnlyWindows: the first byte beyond each size backed, the ends of the offsets outside every window, a
read-only byte, and a LUT byte beyond. -/
theorem witness_UnmappedBytesAndReadOnlyWindows :
    (held.unmappedAt 0x00130000 ∧ held.unmappedAt 0x00220000 ∧ held.unmappedAt 0x00001000 ∧ held.unmappedAt 0x000FFFFF ∧
      held.unmappedAt 0x00300000 ∧ held.unmappedAt 0x00FFFFFF ∧ held.unmappedAt 0x02000000 ∧
      ({ held with params := { Params.reference with maxRasterPixels := 1 } } : State).unmappedAt 0x01000004) ∧
    (0xFFF < (held.busOffset 0x00200000).toNat ∧ (held.busOffset 0x00200000).toNat % 4 = 0 ∧
      ¬ (0x00100000 ≤ (held.busOffset 0x00200000).toNat ∧ (held.busOffset 0x00200000).toNat ≤ 0x001FFFFF)) ∧
    (3 * held.params.lutDepth ≤ 196608 ∧ (nextOf (memWrite 0x00130000 1 5 (cfg 1 1 1 4 .idle))).isSome = true) := by
  unfold State.unmappedAt
  and_intros <;> decide +kernel

/-- UnmappedBytesAndReadOnlyWindows, the reads: E8, and a word whose last byte alone is unmapped. -/
theorem witness_UnmappedBytesAndReadOnlyWindows_reads :
    ((memRead 0x00300000 4 held).1 = 0 ∧ (memRead 0x00300000 4 held).2.errCode = .none ∧
      ∀ q, q < 4 → held.unmappedAt ((held.busOffset 0x00300000).toNat + q)) ∧
    (({ State.powerOn { Params.reference with lutDepth := 1 } with engine := .run } : State).unmappedAt 0x00100003 ∧
      (memRead 0x00100000 4 { State.powerOn { Params.reference with lutDepth := 1 } with
        engine := .run, lut := [(0, 0x11), (1, 0x22), (2, 0x33)] }).1 = 0x00332211) := by
  unfold State.unmappedAt
  and_intros <;> decide +kernel

/-- SampleReadOverBus: the first and the last sample backed. -/
theorem witness_SampleReadOverBus :
    held.params.wellFormed = true ∧ 65535 < held.params.maxFrameSamples ∧
    (held.frameBuf.read (2 * 0)).isSome = true ∧ (held.frameBuf.read (2 * 0 + 1)).isSome = true ∧
    (({ held with frameBuf := [(131070, 1), (131071, 2)] } : State).frameBuf.read (2 * 65535)).isSome = true ∧
    (({ held with frameBuf := [(131070, 1), (131071, 2)] } : State).frameBuf.read (2 * 65535 + 1)).isSome = true := by
  decide

/-- PixelReadOverBusInHold. -/
theorem witness_PixelReadOverBusInHold :
    held.Inv ∧ held.holdShowsFrame ∧ held.engine = .hold ∧ 0 < held.outW ∧ 0 < held.outH ∧
    held.lut.read (3 * held.pixelIndex 0 0) = some 10 ∧ held.lut.read (3 * held.pixelIndex 0 0 + 1) = some 20 ∧
    held.lut.read (3 * held.pixelIndex 0 0 + 2) = some 30 :=
  ⟨test_held_inv, test_held_shows_frame, by decide, by decide, by decide, by decide, by decide, by decide⟩

/-- LegalReadsHaveNoSideEffect: a register, written LUT bytes up to the last one backed, a sample of the frame buffer, and
raster bytes: in HOLD, and in PROC the first beyond the frame's. -/
theorem witness_LegalReadsHaveNoSideEffect :
    ((held.busOffset 0x00000FFC).toNat % 4 = 0 ∧ (held.busOffset 0x00000FFC).toNat ≤ 0xFFF) ∧
    ((held.busOffset 0x0012FFFF).toNat % 1 = 0 ∧ 0x00100000 ≤ (held.busOffset 0x0012FFFF).toNat ∧
      (({ held with lut := [(196607, 7)] } : State).lut.read 196607).isSome = true) ∧
    ((held.busOffset 0x00200000).toNat % 2 = 0 ∧ 0x00200000 ≤ (held.busOffset 0x00200000).toNat ∧
      (held.frameBuf.read 0).isSome = true ∧ (held.frameBuf.read 1).isSome = true) ∧
    ((held.busOffset 0x01000000).toNat % 4 = 0 ∧ held.engine ≠ .proc ∧
      ∀ q, q < 4 → (held.raster.read q).isSome = true) ∧
    (cfg 1 1 1 4 .proc).rasterBytes ≤ ((cfg 1 1 1 4 .proc).busOffset 0x01000004).toNat - 0x01000000 ∧
    (({ cfg 1 1 1 4 .proc with raster := [(4, 9)] } : State).raster.read 4).isSome = true := by decide +kernel

/-- LegalReadsHaveNoSideEffect, the bytes read: the last LUT byte backed in RUN, both samples of a frame as one word, a raster
byte in HOLD, the first beyond the frame's raster in PROC, and the lanes beyond the width. -/
theorem witness_LegalReadsHaveNoSideEffect_bytes :
    (({ cfg 1 1 1 4 .run with lut := [(196607, 7)] } : State).busHolds 0x0012FFFF 7 ∧
      (memRead 0x0012FFFF 1 { cfg 1 1 1 4 .run with lut := [(196607, 7)] }).1 = 0x00000007) ∧
    (({ cfg 2 1 1 4 .proc with frameBuf := samples [0x1234, 0x5678] } : State).busHolds 0x00200003 0x56 ∧
      (memRead 0x00200000 4 { cfg 2 1 1 4 .proc with frameBuf := samples [0x1234, 0x5678] }).1 = 0x56781234 ∧
      (memRead 0x00200001 1 { cfg 2 1 1 4 .proc with frameBuf := samples [0x1234, 0x5678] }).1 = 0x00000012) ∧
    (held.busHolds 0x01000003 255 ∧ (memRead 0x01000002 2 held).1 = 0x0000FF1E) ∧
    (({ cfg 1 1 1 4 .proc with raster := [(4, 9)] } : State).busHolds 0x01000004 9 ∧
      (memRead 0x01000004 1 { cfg 1 1 1 4 .proc with raster := [(4, 9)] }).1 = 0x00000009) := by
  unfold State.busHolds
  and_intros <;> decide +kernel

/-- WaitPollsStatus: the state waited for, and another; `irq` at 1, and at 0; the check of START in RUN, and in ERROR. -/
theorem witness_WaitPollsStatus :
    (nextOf (step { held with hostOps := [.waitFor .hold] })).map (fun s => (s.hostOps, s.hostLog)) =
      some ([], [0x0000000B]) ∧
    (nextOf (step { held with hostOps := [.waitFor .done] })).map (fun s => (s.hostOps, s.hostLog)) =
      some ([.waitFor .done], [0x0000000B]) ∧
    (nextOf (step { held with irqEn := 1, hostOps := [.waitIrq] })).map (fun s => (s.hostOps, s.hostLog)) =
      some ([], []) ∧
    (nextOf (step { held with irqEn := 6, hostOps := [.waitIrq] })).map (fun s => (s.hostOps, s.hostLog)) =
      some ([.waitIrq], []) ∧
    (nextOf (step { held with engine := .run, hostOps := [.checkRun, .frameLoop false] })).map (fun s => s.hostOps) =
      some [.frameLoop false] ∧
    (nextOf (step { held with engine := .error, hostOps := [.checkRun, .frameLoop false] })).map (fun s => s.hostOps) =
      some [.read 0x0C 4] := by decide +kernel

/-- WaitPollsStatus, the frame loop: by polling in HOLD, ERROR and RUN, by `irq` in HOLD, DONE and RUN. -/
theorem witness_WaitPollsStatus_frameLoop :
    (nextOf (step { held with hostOps := [.frameLoop false] })).map (fun s => s.hostOps) =
      some [.read 0x24 4, .read 0x01000000 4, .write 0x04 4 2, .frameLoop false] ∧
    (nextOf (step { held with engine := .error, hostOps := [.frameLoop false] })).map (fun s => s.hostOps) =
      some [.read 0x0C 4] ∧
    (nextOf (step { held with engine := .run, hostOps := [.frameLoop false] })).map (fun s => s.hostOps) =
      some [.frameLoop false] ∧
    (nextOf (step { held with hostOps := [.frameLoop true] })).map (fun s => s.hostOps) =
      some [.read 0x24 4, .read 0x01000000 4, .write 0x04 4 2, .waitIrq, .frameLoop true] ∧
    (nextOf (step { held with engine := .done, hostOps := [.frameLoop true] })).map (fun s => s.hostOps) = some [] ∧
    (nextOf (step { held with engine := .run, hostOps := [.frameLoop true] })).map (fun s => s.hostOps) =
      some [.waitIrq, .frameLoop true] := by decide +kernel

/-- Step 4 of R205 on a configuration START refuses: the check reads STATUS, then ERRINFO, and nothing else follows. -/
theorem test_start_check_reports :
    (match Host.Core.run Sys2Proof.core 3
        { cfg 0 1 1 4 .idle with
          schedule := [.agent .host, .agent .host, .agent .host]
          hostOps := hostOpsOf (startScript.flatMap (ScriptOp.expand 0)) ++ [.frameLoop false] } with
      | .next s => some (s.hostOps, s.hostLog)
      | _ => none) = some ([], [0x00000001, 0x00000325]) := by decide +kernel

/-- PowerOnReset. -/
theorem witness_PowerOnReset :
    ({ held with schedule := [.rst] } : State).schedule = [.rst] ∧ held.params.wellFormed = true := by decide

/-- FrameIngest. -/
theorem witness_FrameIngest :
    (cfg 2 1 1 4 .run).engine = .run ∧ (cfg 2 1 1 4 .run).inCount = 0 ∧
    [(1 : Byte), 2, 3, 4].length = (cfg 2 1 1 4 .run).frameBytes ∧ 0 < (cfg 2 1 1 4 .run).frameBytes ∧
    (cfg 2 1 1 4 .run).frameBytes < 2 ^ 32 := by decide

/-- StreamOfFrames: two frames of one sample, and a chunk one byte short of a frame. -/
theorem witness_StreamOfFrames :
    (cfg 1 1 1 4 .run).params.wellFormed = true ∧ (cfg 1 1 1 4 .run).startAccepts ∧
    (cfg 1 1 1 4 .run).engine = .run ∧ (cfg 1 1 1 4 .run).inCount = 0 ∧
    (∀ f ∈ [[(1 : Byte), 0], [3, 0]], f.length = (cfg 1 1 1 4 .run).frameBytes) ∧
    (∀ f ∈ [[(1 : Byte), 0], [3, 0]], ∀ k lo hi, f[2 * k]? = some lo → f[2 * k + 1]? = some hi →
      lo.toNat + 256 * hi.toNat < (cfg 1 1 1 4 .run).tableSize) ∧
    [(9 : Byte)].length < (cfg 1 1 1 4 .run).frameBytes := by
  refine ⟨by decide, by unfold State.startAccepts; decide, by decide, by decide, by decide, ?_, by decide⟩
  intro f hf k lo hi h1 h2
  have hk : k = 0 := by
    have := (List.getElem?_eq_some_iff.1 h2).1
    fin_cases hf <;> simp at this <;> omega
  subst hk
  fin_cases hf <;> (cases h1; cases h2; decide)

/-- LutFileLoads: the file of one entry into a LUT of one entry. -/
theorem witness_LutFileLoads :
    (State.powerOn { Params.reference with lutDepth := 1 }).params.wellFormed = true ∧
    (State.powerOn { Params.reference with lutDepth := 1 }).engine = .idle ∧
    [(1 : Byte), 2, 3].length ≤ 3 * (State.powerOn { Params.reference with lutDepth := 1 }).params.lutDepth := by decide

/-- RawCodeRange: the smallest table, its last entry. -/
theorem witness_RawCodeRange : 2 ≤ 2 ∧ 1 < 2 ∧ rawCode 2 1 = 65536 ∧ rawCode 2 0 = 0 := by decide +kernel

/-- BuildDomain: refused by each reason, and the smallest table. -/
theorem witness_BuildDomain :
    ([] : List ColorStop) = [] ∧ 1 < 2 ∧ ([⟨7, 8, 9, 20⟩] : List ColorStop) ≠ [] ∧ 2 ≤ 2 := by decide +kernel

/-- TerminalColorReused: the last stop at the entry's own temperature, and none above it (B7). -/
theorem witness_TerminalColorReused :
    ([⟨0, 0, 0, 2185 / 100⟩, ⟨253, 1, 255, 2235 / 100⟩] : List ColorStop).getLast? = some ⟨253, 1, 255, 2235 / 100⟩ ∧
    lutCelsius 65536 18912 = 2235 / 100 ∧
    (∀ stop ∈ ([⟨0, 0, 0, 2185 / 100⟩, ⟨253, 1, 255, 2235 / 100⟩] : List ColorStop),
      stop.t ≤ lutCelsius 65536 18912) := by
  decide +kernel

/-- ChannelBetweenStops: the ends of the fraction; B7's second stop, the first above the temperature of entry 18896, halfway
from the first; and B1's first stop above the temperature of entry 0. -/
theorem witness_ChannelBetweenStops :
    ((0 : Rat) ≤ 0 ∧ (1 : Rat) ≤ 1 ∧ blendChannel 3 200 0 = 3 ∧ blendChannel 3 200 1 = 200) ∧
    (([⟨0, 0, 0, 2185 / 100⟩, ⟨253, 1, 255, 2235 / 100⟩] : List ColorStop)[1]? = some ⟨253, 1, 255, 2235 / 100⟩ ∧
      lutCelsius 65536 18896 < 2235 / 100 ∧ (2185 / 100 : Rat) ≤ lutCelsius 65536 18896 ∧
      ([⟨0, 0, 0, 2185 / 100⟩, ⟨253, 1, 255, 2235 / 100⟩] : List ColorStop)[1 - 1]? = some ⟨0, 0, 0, 2185 / 100⟩ ∧
      (lutCelsius 65536 18896 - 2185 / 100) / (2235 / 100 - 2185 / 100) = 1 / 2) ∧
    (([⟨0, 0, 0, 0⟩, ⟨255, 255, 255, 500⟩] : List ColorStop)[0]? = some ⟨0, 0, 0, 0⟩ ∧ lutCelsius 5 0 < 0) := by
  decide +kernel

end Sys2Proof.Tests
end

/-! The turn taken by a step (O5). -/

namespace Sys2Proof.Machine

/-! A step with a turn scheduled is that turn, taken off the schedule. -/

theorem step_of_scheduled {s : State} {t : Turn} {rest : List Turn} (h : s.schedule = t :: rest) :
    step s = takeTurn t { s with schedule := rest } := by
  simp only [step, nextTurn, h]

/-! The turn of the HOST, by the next operation of its queue. -/

theorem hostTurn_idle {s : State} (h : s.hostOps = []) : hostTurn s = .next s := by
  simp only [hostTurn, h]

theorem hostTurn_write {s : State} {addr v : Word} {n : Nat} {ops : List HostOp}
    (h : s.hostOps = .write addr n v :: ops) : hostTurn s = memWrite addr n v { s with hostOps := ops } := by
  simp only [hostTurn, h]

theorem hostTurn_read {s : State} {addr : Word} {n : Nat} {ops : List HostOp} (h : s.hostOps = .read addr n :: ops) :
    hostTurn s = .next { (memRead addr n { s with hostOps := ops }).2 with
      hostLog := (memRead addr n { s with hostOps := ops }).1 :: s.hostLog } := by
  simp only [hostTurn, h]

/-! A write of CMD, by the decode of its word (R93). -/

theorem memWrite_cmd (s : State) (w : Word) : memWrite (s.regAddr .cmd) 4 w s = writeCmd w s := by
  rw [memWrite_regAddr, writeRegister, Reg.at_offset]

theorem writeCmd_of_decoded {w : Word} {i : Instr} (h : decode (.cmd w) = .ok i) (s : State) :
    writeCmd w s = exec i s := by
  simp only [writeCmd, h]

theorem writeCmd_of_illegal {w : Word} {e : DecodeError} (h : decode (.cmd w) = .error e) (s : State) :
    writeCmd w s = .next (raiseError .illegalCmd w s) := by
  simp only [writeCmd, h]

/-- The HOST's turn with a write of CMD next. -/
theorem step_writeCmd {s : State} {w : Word} {rest : List Turn} {ops : List HostOp}
    (hs : s.schedule = .agent .host :: rest) (ho : s.hostOps = .write (s.regAddr .cmd) 4 w :: ops) :
    step s = writeCmd w { s with schedule := rest, hostOps := ops } :=
  calc step s
    _ = hostTurn { s with schedule := rest } := step_of_scheduled hs
    _ = memWrite (s.regAddr .cmd) 4 w { s with schedule := rest, hostOps := ops } := hostTurn_write ho
    _ = writeCmd w { s with schedule := rest, hostOps := ops } := memWrite_cmd _ w

/-! The turns of the SOURCE and the ENGINE. -/

theorem sourceTurn_idle {s : State} (h : s.stream = []) : sourceTurn s = .next s := by
  simp only [sourceTurn, h]

theorem sourceTurn_in_run {s : State} {tok : Token} {toks : List Token} (h : s.stream = tok :: toks)
    (hr : s.engine = .run) : sourceTurn s = exec (decodeToken tok) { s with stream := toks } := by
  simp only [sourceTurn, h, (State.inReady_iff s).2 hr, if_true]

theorem engineTurn_in_proc {s : State} (h : s.engine = .proc) : engineTurn s = exec .processFrame s := if_pos h

theorem engineTurn_outside_proc {s : State} (h : s.engine ≠ .proc) : engineTurn s = .next s := if_neg h

/-- Settles O5: a step is the scheduled turn, and each turn is the clause for what its agent has pending. -/
theorem stepRunsDecodedInstruction : Obligations.StepRunsDecodedInstruction := by
  unfold Obligations.StepRunsDecodedInstruction
  refine ⟨?cmd, ?illegalCmd, ?write, ?read, ?noOperation, ?token, ?noToken, ?engineStep, ?noEngineStep⟩
  case cmd =>
    intro s w i rest ops hs ho hd
    exact (step_writeCmd hs ho).trans (writeCmd_of_decoded hd _)
  case illegalCmd =>
    intro s w e rest ops hs ho hd
    exact (step_writeCmd hs ho).trans (writeCmd_of_illegal hd _)
  case write =>
    intro s addr v n rest ops hs ho
    exact (step_of_scheduled hs).trans (hostTurn_write ho)
  case read =>
    intro s addr n rest ops hs ho
    exact (step_of_scheduled hs).trans (hostTurn_read ho)
  case noOperation =>
    intro s rest hs ho
    exact (step_of_scheduled hs).trans (hostTurn_idle ho)
  case token =>
    intro s tok i rest toks hs ht hr hd
    obtain rfl : decodeToken tok = i := Except.ok.inj hd
    exact (step_of_scheduled hs).trans (sourceTurn_in_run ht hr)
  case noToken =>
    intro s rest hs ht
    exact (step_of_scheduled hs).trans (sourceTurn_idle ht)
  case engineStep =>
    intro s i rest hs hp hd
    obtain rfl : Instr.processFrame = i := Except.ok.inj hd
    exact (step_of_scheduled hs).trans (engineTurn_in_proc hp)
  case noEngineStep =>
    intro s rest hs hp
    exact (step_of_scheduled hs).trans (engineTurn_outside_proc hp)

end Sys2Proof.Machine

/-! The invariant of the block, kept by each transition (O23). -/

namespace Sys2Proof.Machine

/-- The invariant does not mention the agents' pending inputs, the HOST's log or the draw counter. -/
theorem State.Inv.of_quiet {s u : State} (h : s.Inv) (hq : Quiet s u) : u.Inv := by
  obtain ⟨d, sc, ho, st, lg, rfl⟩ := hq
  exact { h with }

/-- The sizes of the frame in a run: START has accepted the configuration (R34, R166). -/
theorem State.Inv.run_bounds {s : State} (h : s.Inv)
    (hr : s.engine = .run ∨ s.engine = .proc ∨ s.engine = .hold ∨ s.engine = .done) :
    0 < s.frameBytes ∧ s.frameBytes ≤ s.frameBufBytes ∧ s.frameBytes < 2 ^ 32 - 1 ∧
      s.rasterBytes ≤ s.rasterMemBytes :=
  accepted_bounds h.paramsLegal ((configMask_eq_zero_iff s).1 (h.configAccepted hr))

/-- An error is recorded with its code, and nothing is asked of the counters in ERROR (R31, R183). -/
theorem State.Inv.raiseError {s : State} (h : s.Inv) {c : ErrorCode} (hc : c ≠ .none) (w : Word) :
    (raiseError c w s).Inv := by
  by_cases he : s.engine = .error
  · rwa [raiseError_in_error he]
  · rw [raiseError_outside_error he]
    exact { h with
      errorRecorded := by simp [hc]
      noInfo := by simp
      idleCleared := by simp
      configAccepted := by simp
      countPartial := by simp
      countFull := by simp }

/-- In PROC the bytes of the frame's raster are backed, so filling them writes none beyond the raster memory. -/
theorem State.Inv.fillRaster {s : State} (h : s.Inv) (hp : s.engine = .proc) (f : Nat → Byte) :
    State.Inv { s with raster := s.raster.fill s.rasterBytes f } := by
  obtain ⟨_, _, _, hfits⟩ := h.run_bounds (.inr (.inl hp))
  exact { h with
    rasterWf := Memory.wf_fill h.rasterWf _ _
    rasterWithin := Memory.within_fill h.rasterWithin hfits _ }

theorem State.Inv.scrambleRaster {s : State} (h : s.Inv) (hp : s.engine = .proc) : (scrambleRaster s).Inv :=
  { h.fillRaster hp (fun a => Config.freeByte (s.draws + a)) with }

theorem State.Inv.recordUnwrittenLut {s : State} (h : s.Inv) : (recordUnwrittenLut s).Inv := { h with }

theorem State.Inv.clearRun {s : State} (h : s.Inv) : (clearRun s).Inv :=
  { h with
    errorRecorded := by simp
    noInfo := by simp
    idleCleared := by simp
    configAccepted := by simp
    countPartial := by simp
    countFull := by simp
    received := by simp }

theorem State.Inv.softReset {s : State} (h : s.Inv) : (softReset s).Inv := by
  by_cases hp : s.engine = .proc
  · rw [softReset_in_proc hp]
    exact (h.scrambleRaster hp).clearRun
  · rw [softReset_outside_proc hp]
    exact h.clearRun

/-- Power-on values meet the invariant for every legal choice of the parameters (R52). -/
theorem State.powerOn_inv {p : Config.Params} (hp : p.wellFormed = true) : (State.powerOn p).Inv where
  paramsLegal := hp
  lutWf := .nil
  frameBufWf := .nil
  rasterWf := .nil
  lutWithin := List.forall_mem_nil _
  frameBufWithin := List.forall_mem_nil _
  rasterWithin := List.forall_mem_nil _
  errorRecorded := by simp [State.powerOn]
  noInfo := fun _ => rfl
  idleCleared := fun _ => ⟨rfl, rfl⟩
  configAccepted := by simp [State.powerOn]
  countPartial := by simp [State.powerOn]
  countFull := by simp [State.powerOn]
  received := fun _ ha => absurd ha (Nat.not_lt_zero _)

theorem State.Inv.powerOnReset {s : State} (h : s.Inv) : (powerOnReset s).Inv :=
  { State.powerOn_inv h.paramsLegal with }

/-- IDLE asks nothing of the configuration, so any may be written there (R33). -/
theorem State.Inv.writeConfiguration {s : State} (h : s.Inv) (hi : s.engine = .idle) (w ht : BitVec 16) (m : BitVec 8)
    (n : BitVec 17) : State.Inv { s with frameW := w, frameH := ht, mag := m, lutSize := n } :=
  { h with
    configAccepted := by simp [hi]
    countPartial := by simp [hi]
    countFull := by simp [hi] }

theorem State.Inv.writeLut {s : State} (h : s.Inv) (a : Nat) (v : Word) (n : Nat) :
    State.Inv { s with lut := s.lutWritten a v n } :=
  { h with
    lutWf := lutWritten_wf s h.lutWf a v n
    lutWithin := lutWritten_within s h.lutWithin a v n }

/-- Moving to a state of a run, with an accepted configuration: what is left to show is what IN_COUNT promises there
(R34, R42, R77). -/
theorem State.Inv.moveInRun {s : State} (h : s.Inv) (hne : s.engine ≠ .error) (hm : s.configMask = 0)
    {e : EngineState} (he : e ≠ .error) (hi : e ≠ .idle) {n : Word} (q : Word)
    (hpartial : e = .run ∨ e = .done → n.toNat < s.frameBytes)
    (hfull : e = .proc ∨ e = .hold → n.toNat = s.frameBytes)
    (hreceived : ∀ a, a < n.toNat → (s.frameBuf.read a).isSome) :
    State.Inv { s with inCount := n, frameSeq := q, engine := e } := by
  have hcode : s.errCode = .none := not_not.1 fun hc => hne (h.errorRecorded.2 hc)
  exact { h with
    errorRecorded := by simp [he, hcode]
    noInfo := fun _ => h.noInfo hne
    idleCleared := fun hidle => absurd hidle hi
    configAccepted := fun _ => hm
    countPartial := hpartial
    countFull := hfull
    received := hreceived }

/-- Entering RUN, from IDLE or HOLD: IN_COUNT starts at 0, below FB as the frame is not empty (R166, R167). -/
theorem State.Inv.enterRun {s : State} (h : s.Inv) (hne : s.engine ≠ .error) (hm : s.configMask = 0) (q : Word) :
    State.Inv { s with inCount := 0, frameSeq := q, engine := .run } := by
  obtain ⟨hpos, -⟩ := accepted_bounds h.paramsLegal ((configMask_eq_zero_iff s).1 hm)
  exact h.moveInRun hne hm (by decide) (by decide) q (fun _ => hpos) (by simp) (by simp)

/-- END: the partial frame keeps its length (R136). -/
theorem State.Inv.endOfStream {s : State} (h : s.Inv) (hr : s.engine = .run) : State.Inv { s with engine := .done } :=
  h.moveInRun (by simp [hr]) (h.configAccepted (.inl hr)) (by decide) (by decide) s.frameSeq
    (fun _ => h.countPartial (.inl hr)) (by simp) h.received

/-- PROCESS_FRAME without an offending index: the frame stays received while its raster is held (R155). -/
theorem State.Inv.publishFrame {s : State} (h : s.Inv) (hp : s.engine = .proc) : (publishFrame s).Inv :=
  { (h.fillRaster hp s.rasterByte).moveInRun (e := .hold) (by simp [hp]) (h.configAccepted (.inr (.inl hp))) (by decide)
      (by decide) (s.frameSeq + 1) (by simp) (fun _ => h.countFull (.inl hp)) h.received with }

/-- A byte stored in the frame buffer loses none that was received (R131). -/
theorem State.Inv.storeFrameByte {s : State} (h : s.Inv) {a : Nat} (ha : a < s.frameBufBytes) (b : Byte) :
    State.Inv { s with frameBuf := s.frameBuf.write a b } :=
  { h with
    frameBufWf := Memory.wf_write h.frameBufWf a b
    frameBufWithin := Memory.within_write h.frameBufWithin ha b
    received := fun x hx => by
      rw [Memory.read_write]
      split
      · rfl
      · exact h.received x hx }

/-- In RUN the count of bytes does not wrap (R42, R131). -/
theorem State.Inv.inCount_succ {s : State} (h : s.Inv) (hr : s.engine = .run) :
    (s.inCount + 1).toNat = s.inCount.toNat + 1 := by
  obtain ⟨_, _, hsmall, _⟩ := h.run_bounds (.inl hr)
  have hlt := h.countPartial (.inl hr)
  exact BitVec.toNat_add_of_lt (show s.inCount.toNat + 1 < 2 ^ 32 by omega)

/-- A byte received is the next one of the frame, and the one that completes it leads to PROC (R131, R132). -/
theorem State.Inv.receiveByte {s : State} (h : s.Inv) (hr : s.engine = .run) (b : Byte) :
    State.Inv { s with
      frameBuf := s.frameBuf.write s.inCount.toNat b
      inCount := s.inCount + 1
      engine := if (s.inCount + 1).toNat = s.frameBytes then .proc else .run } := by
  obtain ⟨_, hfits, _, _⟩ := h.run_bounds (.inl hr)
  have hlt : s.inCount.toNat < s.frameBytes := h.countPartial (.inl hr)
  have hsucc := h.inCount_succ hr
  have hstored := h.storeFrameByte (lt_of_lt_of_le hlt hfits) b
  have hne : s.engine ≠ .error := by simp [hr]
  have hreceived : ∀ a, a < (s.inCount + 1).toNat → ((s.frameBuf.write s.inCount.toNat b).read a).isSome := by
    intro a ha
    rcases Nat.lt_succ_iff_lt_or_eq.1 (hsucc ▸ ha) with hold | rfl
    · exact hstored.received a hold
    · simp
  split
  case isTrue hfull =>
    exact hstored.moveInRun hne (h.configAccepted (.inl hr)) (by decide) (by decide) s.frameSeq (by simp)
      (fun _ => hfull) hreceived
  case isFalse hpartial =>
    have hbelow : (s.inCount + 1).toNat < s.frameBytes := by omega
    exact hstored.moveInRun hne (h.configAccepted (.inl hr)) (by decide) (by decide) s.frameSeq (fun _ => hbelow)
      (by simp) hreceived

/-- Every transition of the block but the reset input keeps the invariant. -/
theorem State.Inv.of_transition {s t : State} (h : s.Inv) (ht : Transition s t) : t.Inv := by
  cases ht with
  | stay => exact h
  | error c w hc => exact h.raiseError hc w
  | softReset => exact h.softReset
  | start hi hm => exact h.enterRun (by simp [hi]) hm 0
  | release hh => exact h.enterRun (by simp [hh]) (h.configAccepted (.inr (.inr (.inl hh)))) s.frameSeq
  | byte b hr => exact h.receiveByte hr b
  | endOfStream hr => exact h.endOfStream hr
  | publish hp hb => exact (h.publishFrame hp).recordUnwrittenLut
  | lutRange hp hb => exact (h.scrambleRaster hp).recordUnwrittenLut.raiseError (by decide) _
  | setFrameW v hi => exact h.writeConfiguration hi v s.frameH s.mag s.lutSize
  | setFrameH v hi => exact h.writeConfiguration hi s.frameW v s.mag s.lutSize
  | setMag v hi => exact h.writeConfiguration hi s.frameW s.frameH v s.lutSize
  | setLutSize v hi => exact h.writeConfiguration hi s.frameW s.frameH s.mag v
  | setIrqEn v => exact { h with }
  | writeLut a v n hi => exact h.writeLut a v n

/-- Settles O23: a step is the reset input or one transition, from a state that differs in what the invariant does not
mention. -/
theorem stepKeepsInvariant : Obligations.StepKeepsInvariant := by
  unfold Obligations.StepKeepsInvariant
  intro s t hinv hstep
  obtain ⟨u, hquiet, ⟨_, rfl⟩ | htransition⟩ := step_transition hstep
  · exact (hinv.of_quiet hquiet).powerOnReset
  · exact (hinv.of_quiet hquiet).of_transition htransition

end Sys2Proof.Machine

/-! What an instruction does, and in which of its cases (O12, O13, O21). -/

namespace Sys2Proof.Machine

/-- What one instruction can do, with the condition each effect has; `exec_effect` says that there is nothing else. -/
inductive Effect (s : State) : Instr → State → Prop where
  | unchanged (i : Instr) (hi : i ≠ .reset) : Effect s i s
  | error (i : Instr) (hi : i ≠ .reset) (c : ErrorCode) (w : Word) : Effect s i (raiseError c w s)
  | start (h : s.engine = .idle) : Effect s .start { s with inCount := 0, frameSeq := 0, engine := .run }
  | release (h : s.engine = .hold) : Effect s .release { s with inCount := 0, engine := .run }
  | reset : Effect s .reset (softReset s)
  | byte (b : Byte) (h : s.engine = .run) :
      Effect s (.byte b) { s with
        frameBuf := s.frameBuf.write s.inCount.toNat b
        inCount := s.inCount + 1
        engine := if (s.inCount + 1).toNat = s.frameBytes then .proc else .run }
  | endOfStream (h : s.engine = .run) : Effect s .endOfStream { s with engine := .done }
  | publish (h : s.engine = .proc) : Effect s .processFrame (recordUnwrittenLut (publishFrame s))
  | lutRange (h : s.engine = .proc) (w : Word) :
      Effect s .processFrame (raiseError .lutRange w (recordUnwrittenLut (scrambleRaster s)))

/-- Every instruction answers a next state, by one of its effects. -/
theorem exec_effect (i : Instr) (s : State) : ∃ t, exec i s = .next t ∧ Effect s i t := by
  cases i with
  | nop => exact ⟨s, rfl, .unchanged _ (by decide)⟩
  | start =>
    simp only [exec, execStart]
    split
    · exact ⟨_, rfl, .error _ (by decide) _ _⟩
    · rename_i hidle
      split
      · exact ⟨_, rfl, .error _ (by decide) _ _⟩
      · exact ⟨_, rfl, .start (not_not.1 hidle)⟩
  | release =>
    simp only [exec, execRelease]
    split
    · exact ⟨_, rfl, .error _ (by decide) _ _⟩
    · rename_i hhold
      exact ⟨_, rfl, .release (not_not.1 hhold)⟩
  | reset => exact ⟨_, rfl, .reset⟩
  | byte b =>
    simp only [exec, execByte]
    split
    · rename_i hready
      exact ⟨_, rfl, .byte b ((State.inReady_iff s).1 hready)⟩
    · exact ⟨s, rfl, .unchanged _ (by simp)⟩
  | endOfStream =>
    simp only [exec, execEndOfStream]
    split
    · rename_i hready
      exact ⟨_, rfl, .endOfStream ((State.inReady_iff s).1 hready)⟩
    · exact ⟨s, rfl, .unchanged _ (by decide)⟩
  | reservedToken data =>
    simp only [exec, execReservedToken]
    split
    · exact ⟨_, rfl, .error _ (by simp) _ _⟩
    · exact ⟨s, rfl, .unchanged _ (by simp)⟩
  | processFrame =>
    simp only [exec, execProcessFrame]
    split
    · exact ⟨s, rfl, .unchanged _ (by decide)⟩
    · rename_i hproc
      split
      · exact ⟨_, rfl, .publish (not_not.1 hproc)⟩
      · exact ⟨_, rfl, .lutRange (not_not.1 hproc) _⟩

/-- The effect of an instruction that answered `t`. -/
theorem effect_of_exec {i : Instr} {s t : State} (h : exec i s = .next t) : Effect s i t := by
  obtain ⟨u, hu, heffect⟩ := exec_effect i s
  obtain rfl : u = t := Host.Outcome.next.inj (hu.symm.trans h)
  exact heffect

/-! The frame of the instructions, register by register. -/

/-- No instruction writes the parameters, the configuration, IRQ_EN, the pending inputs or the HOST's record. -/
theorem Effect.keeps_configuration {i : Instr} {s t : State} (h : Effect s i t) :
    t.params = s.params ∧ t.frameW = s.frameW ∧ t.frameH = s.frameH ∧ t.mag = s.mag ∧ t.lutSize = s.lutSize ∧
      t.irqEn = s.irqEn ∧ t.schedule = s.schedule ∧ t.hostOps = s.hostOps ∧ t.stream = s.stream ∧
      t.hostLog = s.hostLog := by
  cases h <;> simp

theorem Effect.inCount_eq {i : Instr} {s t : State} (h : Effect s i t) (hstart : i ≠ .start) (hrelease : i ≠ .release)
    (hreset : i ≠ .reset) (hbyte : ∀ b, i ≠ .byte b) : t.inCount = s.inCount := by
  cases h with
  | start => exact absurd rfl hstart
  | release => exact absurd rfl hrelease
  | reset => exact absurd rfl hreset
  | byte b => exact absurd rfl (hbyte b)
  | _ => simp

theorem Effect.frameSeq_eq {i : Instr} {s t : State} (h : Effect s i t) (hstart : i ≠ .start) (hreset : i ≠ .reset)
    (hframe : i ≠ .processFrame) : t.frameSeq = s.frameSeq := by
  cases h with
  | start => exact absurd rfl hstart
  | reset => exact absurd rfl hreset
  | publish | lutRange => exact absurd rfl hframe
  | _ => simp

/-- But for RESET, the error record is written only on entering ERROR. -/
theorem Effect.errorRecord_eq {i : Instr} {s t : State} (h : Effect s i t) (hreset : i ≠ .reset)
    (hstays : ¬ (s.engine ≠ .error ∧ t.engine = .error)) : t.errCode = s.errCode ∧ t.errInfo = s.errInfo := by
  cases h with
  | error _ _ c w =>
    have he : s.engine = .error := by simpa using hstays
    rw [raiseError_in_error he]
    exact ⟨rfl, rfl⟩
  | reset => exact absurd rfl hreset
  | lutRange hproc => exact absurd ⟨by simp [hproc], by simp⟩ hstays
  | _ => exact ⟨rfl, rfl⟩

theorem Effect.unwrittenLutRead_eq {i : Instr} {s t : State} (h : Effect s i t) (hframe : i ≠ .processFrame) :
    t.unwrittenLutRead = s.unwrittenLutRead := by
  cases h with
  | publish | lutRange => exact absurd rfl hframe
  | _ => simp

/-- Settles O21: the frame lemmas above, put together for the effect of the instruction. -/
theorem instructionRegisterFrame : Obligations.InstructionRegisterFrame := by
  unfold Obligations.InstructionRegisterFrame
  intro i s t hexec
  have h := effect_of_exec hexec
  obtain ⟨hparams, hw, hh, hmag, hlut, hirq, hsched, hops, hstream, hlog⟩ := h.keeps_configuration
  exact ⟨hparams, hw, hh, hmag, hlut, hirq, hsched, hops, hstream, hlog, h.inCount_eq, h.frameSeq_eq, h.errorRecord_eq,
    h.unwrittenLutRead_eq⟩

/-! The interrupt level and STATUS. -/

/-- The level of `irq` (R187). -/
theorem irq_eq_true_iff (s : State) :
    s.irq = true ↔
      (s.irqEn.getLsbD 0 = true ∧ s.engine = .hold) ∨ (s.irqEn.getLsbD 1 = true ∧ s.engine = .done) ∨
        (s.irqEn.getLsbD 2 = true ∧ s.engine = .error) := by
  simp only [State.irq, State.frameReady, State.eos, State.err, Bool.or_eq_true, Bool.and_eq_true, decide_eq_true_eq,
    or_assoc]

/-- In IDLE no interrupt is pending, whatever is enabled (R187). -/
theorem irq_idle {s : State} (h : s.engine = .idle) : s.irq = false := by
  simp [State.irq, State.frameReady, State.eos, State.err, h]

/-- STATUS reads 0 in IDLE with no error recorded (R29, R52, R53). -/
theorem status_idle {s : State} (h : s.engine = .idle) (hcode : s.errCode = .none) : s.status = 0 := by
  simp only [State.status, irq_idle h, State.frameReady, State.eos, State.err, State.busy, h, hcode]
  decide

/-! RESET. -/

/-- A soft reset clears the run and writes nothing else but the raster and the draw counter (R53, R168). -/
theorem softReset_eq (s : State) :
    softReset s = { s with
      engine := .idle, errCode := .none, errInfo := 0, frameSeq := 0, inCount := 0,
      raster := (softReset s).raster, draws := (softReset s).draws } := by
  unfold softReset
  split <;> rfl

/-- A soft reset in PROC opens the raster bytes of the frame and keeps those beyond (R168). -/
theorem softReset_raster_read {s : State} (h : s.engine = .proc) (a : Nat) :
    (softReset s).raster.read a =
      if a < s.rasterBytes then some (Config.freeByte (s.draws + a)) else s.raster.read a := by
  rw [softReset_in_proc h, clearRun_raster, scrambleRaster_raster, Memory.read_fill]

/-- Settles O12: RESET is the soft reset, and in PROC its raster is a fill. -/
theorem resetRule : Obligations.ResetRule := by
  unfold Obligations.ResetRule
  refine ⟨by decide, fun s => ⟨softReset s, rfl, softReset_eq s, status_idle rfl rfl, ?outsideProc, ?inProc⟩⟩
  case outsideProc =>
    intro h
    rw [softReset_outside_proc h]
    exact ⟨rfl, rfl⟩
  case inProc =>
    intro h a
    rw [softReset_raster_read h]
    exact ⟨fun ha => by simp [ha], fun ha => if_neg (Nat.not_lt.2 ha)⟩

/-! In ERROR (R183). -/

/-- In ERROR every instruction but RESET is without effect (R130, R169, R197). -/
theorem exec_in_error {i : Instr} {s : State} (he : s.engine = .error) (hi : i ≠ .reset) : exec i s = .next s := by
  obtain ⟨t, hexec, heffect⟩ := exec_effect i s
  rw [hexec]
  cases heffect with
  | unchanged => rfl
  | error _ _ c w => rw [raiseError_in_error he]
  | reset => exact absurd rfl hi
  | start h | release h | byte _ h | endOfStream h | publish h | lutRange h => simp [he] at h

/-- Only the CMD word 3 is RESET (R92, R93). -/
theorem eq_three_of_decode_reset {w : Word} (h : decode (.cmd w) = .ok .reset) : w = 0x00000003 := by
  simp only [decode, decodeCommand] at h
  split_ifs at h with hnop hstart hrelease hreset
  · cases h
  · cases h
  · cases h
  · exact hreset

/-- In ERROR a CMD write other than that of RESET is without effect (R169, R183). -/
theorem writeCmd_in_error {s : State} {v : Word} (he : s.engine = .error) (hv : v ≠ 0x00000003) :
    writeCmd v s = .next s := by
  cases hd : decode (.cmd v) with
  | ok i =>
    rw [writeCmd_of_decoded hd]
    exact exec_in_error he fun hi => hv (eq_three_of_decode_reset (hi ▸ hd))
  | error e => rw [writeCmd_of_illegal hd, raiseError_in_error he]

/-- In ERROR a configuration write is without effect (R33, R183). -/
theorem writeConfig_in_error {s : State} (he : s.engine = .error) (r : Reg) (updated : State) :
    writeConfig r updated s = s := by
  rw [writeConfig, if_neg (by simp [he]), raiseError_in_error he]

/-- In ERROR only IRQ_EN is written among the registers that are no command (R41, R183). -/
theorem writePlainRegister_in_error {s : State} {r : Reg} (he : s.engine = .error) (hr : r ≠ .irqEn) (v : Word) :
    writePlainRegister r v s = s := by
  cases r with
  | irqEn => exact absurd rfl hr
  | frameW | frameH | mag | lutSize => exact writeConfig_in_error he _ _
  | _ => rfl

/-- A write at the offset of a register that is no command (R71). -/
theorem writeRegister_plain {off : Nat} {r : Reg} (h : Reg.at off = some r) (hr : r ≠ .cmd) (v : Word) (s : State) :
    writeRegister off v s = .next (writePlainRegister r v s) := by
  unfold writeRegister
  rw [h]
  cases r with
  | cmd => exact absurd rfl hr
  | _ => rfl

/-- In ERROR a register write is without effect, but for RESET and IRQ_EN (R41, R183). -/
theorem writeRegister_in_error {s : State} {off : Nat} {v : Word} (he : s.engine = .error)
    (hcmd : Reg.at off = some .cmd → v ≠ 0x00000003) (hirq : Reg.at off ≠ some .irqEn) :
    writeRegister off v s = .next s := by
  cases hr : Reg.at off with
  | none => simp only [writeRegister, hr]
  | some r =>
    by_cases hc : r = .cmd
    · subst hc
      simp only [writeRegister, hr]
      exact writeCmd_in_error he (hcmd hr)
    · rw [writeRegister_plain hr hc, writePlainRegister_in_error he fun h => hirq (h ▸ hr)]

/-- The register found at an offset stands there (R25). -/
theorem Reg.offset_of_at {off : Nat} {r : Reg} (h : Reg.at off = some r) : r.offset = off := by
  simpa using List.find?_some h

/-- The register window is the offsets up to 0xFFF, each with itself (R61). -/
theorem eq_of_windowOf_registers {off a : Nat} (h : windowOf off = .registers a) : a = off := by
  unfold windowOf at h
  split_ifs at h
  exact (Window.registers.inj h).symm

/-- The address at whose bus offset a register stands is that register's (R61). -/
theorem eq_regAddr_of_at {s : State} {addr : Word} {r : Reg} (h : Reg.at (s.busOffset addr).toNat = some r) :
    addr = s.regAddr r := by
  have hoff : BitVec.ofNat 32 r.offset = s.busOffset addr := by
    rw [Reg.offset_of_at h, BitVec.ofNat_toNat, BitVec.setWidth_eq]
  rw [State.regAddr, hoff, State.busOffset]
  bv_omega

/-- In ERROR every bus write is without effect, but for those of RESET and of IRQ_EN (R41, R183). -/
theorem memWrite_in_error {s : State} {addr v : Word} {n : Nat} (he : s.engine = .error)
    (hcmd : ¬ (addr = s.regAddr .cmd ∧ v = 0x00000003)) (hirq : addr ≠ s.regAddr .irqEn) :
    memWrite addr n v s = .next s := by
  simp only [memWrite, raiseError_in_error he, ite_self]
  split
  · rename_i a hwindow
    obtain rfl := eq_of_windowOf_registers hwindow
    have hwrite : writeRegister (s.busOffset addr).toNat v s = .next s :=
      writeRegister_in_error he (fun h hv => hcmd ⟨eq_regAddr_of_at h, hv⟩) fun h => hirq (eq_regAddr_of_at h)
    rw [hwrite, ite_self]
  · simp [he]
  · rfl

/-- Settles O13: the first error is kept, by what instructions and bus writes do in ERROR. -/
theorem firstErrorIsKept : Obligations.FirstErrorIsKept := by
  unfold Obligations.FirstErrorIsKept
  exact ⟨fun c info s h => raiseError_outside_error h c info, fun c info s h => raiseError_in_error h c info,
    fun s h => by simp [State.inReady, h], fun i s h hi => exec_in_error h hi,
    fun s addr v n h hcmd hirq => memWrite_in_error h hcmd hirq⟩

end Sys2Proof.Machine

/-! PROCESS_FRAME with every index in the table (O17). -/

namespace Sys2Proof.Machine

/-- The bytes of a pixel of the frame lie in the frame's raster (R65). -/
theorem pixelByte_lt_rasterBytes {s : State} {ox oy c : Nat} (hx : ox < s.outW) (hy : oy < s.outH) (hc : c < 4) :
    4 * (oy * s.outW + ox) + c < s.rasterBytes := by
  have hpixel : oy * s.outW + ox < s.outW * s.outH :=
    calc oy * s.outW + ox
      _ < oy * s.outW + s.outW := by omega
      _ = s.outW * (oy + 1) := by ring
      _ ≤ s.outW * s.outH := Nat.mul_le_mul_left _ hy
  rw [State.rasterBytes, Nat.mul_assoc]
  omega

/-- A color channel of a LUT entry whose byte has been written (R151, R153). -/
theorem lutEntry_channel_of_written {s : State} {idx c : Nat} {b : Byte} (hc : c < 3)
    (hb : s.lut.read (3 * idx + c) = some b) (draw : Nat) : (s.lutEntry draw idx).channel c = b := by
  have hbyte : ∀ d, s.lutByte d (3 * idx + c) = b := fun d => by rw [State.lutByte, hb, Option.getD_some]
  match c, hc with
  | 0, _ => exact hbyte draw
  | 1, _ => exact hbyte (draw + 1)
  | 2, _ => exact hbyte (draw + 2)

/-- A published pixel in range is its LUT entry, byte by byte (R65, R153). -/
theorem publishFrame_pixelByte {s : State} {ox oy c : Nat} (hx : ox < s.outW) (hy : oy < s.outH) (hc : c < 4)
    (hi : s.pixelIndex ox oy < s.tableSize) :
    (publishFrame s).raster.read (4 * (oy * s.outW + ox) + c) =
      some ((s.lutEntry (s.draws + 4 * (oy * s.outW + ox)) (s.pixelIndex ox oy)).channel c) := by
  rw [publishFrame_raster, Memory.read_fill, if_pos (pixelByte_lt_rasterBytes hx hy hc), rasterByte_pixel hx hc hi]

/-- With every index in the table, the raster published shows the frame (R81, R155). -/
theorem publishFrame_showsFrame {s : State}
    (h : ∀ ox oy, ox < s.outW → oy < s.outH → s.pixelIndex ox oy < s.tableSize) : (publishFrame s).showsFrame := by
  intro ox oy hx hy
  have hi : s.pixelIndex ox oy < s.tableSize := h ox oy hx hy
  refine ⟨hi, fun c hc b hb => ?color, publishFrame_pixelByte hx hy (by decide) hi⟩
  case color =>
    have hentry : ∀ draw, (s.lutEntry draw (s.pixelIndex ox oy)).channel c = b := lutEntry_channel_of_written hc hb
    exact (publishFrame_pixelByte (s := s) hx hy (by omega) hi).trans (congrArg some (hentry _))

/-- PROCESS_FRAME with every index in the table publishes the frame (R155). -/
theorem exec_processFrame_publishes {s : State} (hp : s.engine = .proc)
    (h : ∀ ox oy, ox < s.outW → oy < s.outH → s.pixelIndex ox oy < s.tableSize) :
    exec .processFrame s = .next (recordUnwrittenLut (publishFrame s)) := by
  simp only [exec, execProcessFrame, hp, ne_eq, not_true_eq_false, if_false, (badIndices_eq_nil_iff s).2 h, if_true]

/-- Settles O17: the state published, and its raster as a fill of the frame's bytes. Recording the model fault writes none of
what the frame shows. -/
theorem processFramePublishes : Obligations.ProcessFramePublishes := by
  unfold Obligations.ProcessFramePublishes
  intro s hp h
  refine ⟨_, exec_processFrame_publishes hp h, rfl, publishFrame_showsFrame h, ?written, ?beyond⟩
  case written =>
    intro a ha
    rw [recordUnwrittenLut_raster, publishFrame_raster, Memory.read_fill, if_pos ha]
    rfl
  case beyond =>
    intro a ha
    rw [recordUnwrittenLut_raster, publishFrame_raster, Memory.read_fill, if_neg (Nat.not_lt.2 ha)]

end Sys2Proof.Machine

/-! What a step changes: the ENGINE state, the configuration and the LUT, FRAME_SEQ (O25, O26, O30). -/

namespace Sys2Proof.Machine

/-! `Quiet` changes nothing that these statements mention. -/

theorem Quiet.engine_eq {s u : State} (h : Quiet s u) : u.engine = s.engine := by
  obtain ⟨_, _, _, _, _, rfl⟩ := h
  rfl

theorem Quiet.frameSeq_eq {s u : State} (h : Quiet s u) : u.frameSeq = s.frameSeq := by
  obtain ⟨_, _, _, _, _, rfl⟩ := h
  rfl

/-- A transition follows the state diagram (R22). -/
theorem Transition.engine_mayFollow {s t : State} (h : Transition s t) : mayFollow s.engine t.engine := by
  cases h with
  | error c w => simp [mayFollow]
  | softReset => simp [mayFollow]
  | start hidle => simp [mayFollow, hidle]
  | release hhold => simp [mayFollow, hhold]
  | byte b hrun =>
    show mayFollow s.engine (if _ then .proc else .run)
    split <;> simp [mayFollow, hrun]
  | endOfStream hrun => simp [mayFollow, hrun]
  | publish hproc => simp [mayFollow, hproc]
  | lutRange => simp [mayFollow]
  | stay | setFrameW | setFrameH | setMag | setLutSize | setIrqEn | writeLut => exact .inl rfl

/-- Settles O25: a step is the reset input, which leads to IDLE, or one transition. -/
theorem stepFollowsStateDiagram : Obligations.StepFollowsStateDiagram := by
  unfold Obligations.StepFollowsStateDiagram
  intro s t hstep
  obtain ⟨u, hquiet, ⟨_, rfl⟩ | htransition⟩ := step_transition hstep
  · exact .inr (.inl rfl)
  · rw [← hquiet.engine_eq]
    exact htransition.engine_mayFollow

/-- Outside IDLE no transition writes the configuration or the LUT (R33, R34, R79). -/
theorem Transition.keeps_configuration {s t : State} (h : Transition s t) (hi : s.engine ≠ .idle) :
    t.frameW = s.frameW ∧ t.frameH = s.frameH ∧ t.mag = s.mag ∧ t.lutSize = s.lutSize ∧ t.params = s.params ∧
      t.lut = s.lut := by
  cases h with
  | setFrameW _ hidle | setFrameH _ hidle | setMag _ hidle | setLutSize _ hidle => exact absurd hidle hi
  | writeLut _ _ _ hidle => exact absurd hidle hi
  | _ => simp

/-- Settles O26: with the reset input kept out, a step is one transition from a state outside IDLE. -/
theorem configurationAndLutConstantDuringRun : Obligations.ConfigurationAndLutConstantDuringRun := by
  unfold Obligations.ConfigurationAndLutConstantDuringRun
  intro s t hi hrst hstep
  obtain ⟨u, hquiet, ⟨hhead, _⟩ | htransition⟩ := step_transition hstep
  · exact absurd hhead hrst
  · obtain ⟨hw, hh, hmag, hsize, hparams, hlut⟩ := htransition.keeps_configuration (by rwa [hquiet.engine_eq])
    obtain ⟨_, _, _, _, _, rfl⟩ := hquiet
    exact ⟨hw, hh, hmag, hsize, hparams, fun a => by rw [hlut]⟩

/-- How FRAME_SEQ goes with the ENGINE state: one more from PROC to HOLD; else kept, or cleared on the way to IDLE or from IDLE
to RUN (R47). -/
def CountsFrames (s t : State) : Prop :=
  (s.engine = .proc → t.engine = .hold → t.frameSeq = s.frameSeq + 1) ∧
  (¬ (s.engine = .proc ∧ t.engine = .hold) →
    t.frameSeq = s.frameSeq ∨ (t.frameSeq = 0 ∧ (t.engine = .idle ∨ (s.engine = .idle ∧ t.engine = .run))))

theorem CountsFrames.of_kept {s t : State} (hseq : t.frameSeq = s.frameSeq) (hno : s.engine = .proc → t.engine ≠ .hold) :
    CountsFrames s t :=
  ⟨fun hp hh => absurd hh (hno hp), fun _ => .inl hseq⟩

theorem CountsFrames.of_idle {s t : State} (hseq : t.frameSeq = 0) (hidle : t.engine = .idle) : CountsFrames s t :=
  ⟨fun _ hh => by simp [hidle] at hh, fun _ => .inr ⟨hseq, .inl hidle⟩⟩

/-- Every transition counts frames so (R47, R53, R155, R166). -/
theorem Transition.countsFrames {s t : State} (h : Transition s t) : CountsFrames s t := by
  cases h with
  | softReset => exact .of_idle rfl rfl
  | start hidle => exact ⟨by simp, fun _ => .inr ⟨rfl, .inr ⟨hidle, rfl⟩⟩⟩
  | publish hproc => exact ⟨fun _ _ => rfl, fun hno => absurd ⟨hproc, rfl⟩ hno⟩
  | error | lutRange => exact .of_kept (by simp) (by simp)
  | release hhold => exact .of_kept rfl (by simp [hhold])
  | byte _ hrun | endOfStream hrun => exact .of_kept rfl (by simp [hrun])
  | stay | setFrameW | setFrameH | setMag | setLutSize | setIrqEn | writeLut => exact .of_kept rfl (by simp +contextual)

/-- Settles O30: a step is the reset input, which clears FRAME_SEQ on the way to IDLE, or one transition. -/
theorem frameSeqCountsFrames : Obligations.FrameSeqCountsFrames := by
  unfold Obligations.FrameSeqCountsFrames
  intro s t hstep
  obtain ⟨u, hquiet, ⟨_, rfl⟩ | htransition⟩ := step_transition hstep
  · exact CountsFrames.of_idle rfl rfl
  · rw [← hquiet.engine_eq, ← hquiet.frameSeq_eq]
    exact htransition.countsFrames

end Sys2Proof.Machine

/-! The registers over the bus (O40, O41, O43, O44, O45). -/

namespace Sys2Proof.Machine

/-! Reads. -/

theorem readRegister_frameW (s : State) : readRegister .frameW s = BitVec.ofNat 32 s.width :=
  (BitVec.ofNat_toNat 32 s.frameW).symm

theorem readRegister_frameH (s : State) : readRegister .frameH s = BitVec.ofNat 32 s.height :=
  (BitVec.ofNat_toNat 32 s.frameH).symm

theorem readRegister_mag (s : State) : readRegister .mag s = BitVec.ofNat 32 s.m := (BitVec.ofNat_toNat 32 s.mag).symm

theorem readRegister_lutSize (s : State) : readRegister .lutSize s = BitVec.ofNat 32 s.tableSize :=
  (BitVec.ofNat_toNat 32 s.lutSize).symm

theorem readRegister_irqEn (s : State) : readRegister .irqEn s = BitVec.ofNat 32 s.irqEn.toNat :=
  (BitVec.ofNat_toNat 32 s.irqEn).symm

/-- A 16-bit size times the 8-bit magnification has at most 24 bits (R43, R44). -/
theorem size_mul_mag_lt (w : BitVec 16) (m : BitVec 8) : w.toNat * m.toNat < 2 ^ 24 :=
  calc w.toNat * m.toNat
    _ < 2 ^ 16 * 2 ^ 8 := Nat.mul_lt_mul'' w.isLt m.isLt
    _ = 2 ^ 24 := by norm_num

theorem outW_lt (s : State) : s.outW < 2 ^ 24 := size_mul_mag_lt s.frameW s.mag

theorem outH_lt (s : State) : s.outH < 2 ^ 24 := size_mul_mag_lt s.frameH s.mag

theorem readRegister_outW_toNat (s : State) : (readRegister .outW s).toNat = s.outW :=
  (BitVec.toNat_ofNat _ _).trans (Nat.mod_eq_of_lt (lt_trans (outW_lt s) (by norm_num)))

theorem readRegister_outH_toNat (s : State) : (readRegister .outH s).toNat = s.outH :=
  (BitVec.toNat_ofNat _ _).trans (Nat.mod_eq_of_lt (lt_trans (outH_lt s) (by norm_num)))

/-- A 32-bit read at a register's address, for the word the register reads as (R70). -/
theorem memRead_regAddr_of {s : State} {r : Reg} {w : Word} (h : readRegister r s = w) :
    memRead (s.regAddr r) 4 s = (w, s) := by
  rw [memRead_regAddr, h]

/-- Settles O40: a read at a register's address is `readRegister`, register by register. -/
theorem registerReads : Obligations.RegisterReads := by
  unfold Obligations.RegisterReads
  intro s
  refine ⟨memRead_regAddr_of rfl, memRead_regAddr_of rfl, memRead_regAddr_of rfl, memRead_regAddr_of rfl,
    memRead_regAddr_of (readRegister_frameW s), memRead_regAddr_of (readRegister_frameH s),
    memRead_regAddr_of (readRegister_mag s), memRead_regAddr_of (readRegister_lutSize s),
    memRead_regAddr_of (readRegister_irqEn s), memRead_regAddr_of rfl, memRead_regAddr_of rfl, ?_⟩
  rw [memRead_regAddr, memRead_regAddr]
  exact ⟨readRegister_outW_toNat s, rfl, readRegister_outH_toNat s, rfl, outW_lt s, outH_lt s⟩

/-! STATUS, field by field (R29). -/

theorem status_state (s : State) : s.status.extractLsb' 0 3 = s.engine.code := by
  unfold State.status
  rw [BitVec.extractLsb'_append_eq_of_add_le (by omega), BitVec.extractLsb'_eq_self]

theorem status_errCode (s : State) : s.status.extractLsb' 8 4 = s.errCode.code := by
  unfold State.status
  iterate 6 rw [BitVec.extractLsb'_append_eq_of_le (by omega)]
  rw [BitVec.extractLsb'_append_eq_of_add_le (by omega), BitVec.extractLsb'_eq_self]

theorem status_reserved (s : State) : s.status.extractLsb' 12 20 = 0 := by
  unfold State.status
  iterate 7 rw [BitVec.extractLsb'_append_eq_of_le (by omega)]
  rfl

/-- The single-bit fields of STATUS: FRAME_READY, EOS, ERR, BUSY and IRQ (R29). -/
theorem status_flags (s : State) :
    s.status.getLsbD 3 = s.frameReady ∧ s.status.getLsbD 4 = s.eos ∧ s.status.getLsbD 5 = s.err ∧
      s.status.getLsbD 6 = s.busy ∧ s.status.getLsbD 7 = s.irq := by
  unfold State.status
  simp only [BitVec.getLsbD_append, BitVec.getLsbD_ofBool]
  simp

/-- Settles O41: the fields of the STATUS word, each by its position, and the codes by their tables. -/
theorem statusFields : Obligations.StatusFields := by
  unfold Obligations.StatusFields
  intro s
  obtain ⟨hready, heos, herr, hbusy, hirq⟩ := status_flags s
  refine ⟨status_state s, ?_, ?_, ?_, ?_, hirq, status_errCode s, status_reserved s, memRead_regAddr s .status,
    ?stateCode, ?errorCode⟩
  · rw [hready, State.frameReady, decide_eq_true_iff]
  · rw [heos, State.eos, decide_eq_true_iff]
  · rw [herr, State.err, decide_eq_true_iff]
  · rw [hbusy, State.busy, decide_eq_true_iff]
  case stateCode => cases s.engine <;> rfl
  case errorCode => cases s.errCode <;> rfl

/-! Writes. -/

/-- A 32-bit write at the address of a register that is no command (R71). -/
theorem memWrite_plain {r : Reg} (hr : r ≠ .cmd) (s : State) (v : Word) :
    memWrite (s.regAddr r) 4 v s = .next (writePlainRegister r v s) := by
  rw [memWrite_regAddr, writeRegister_plain (Reg.at_offset r) hr]

/-- No register stands beyond OUT_H (R25). -/
theorem Reg.at_eq_none {off : Nat} (h : 0x34 ≤ off) : Reg.at off = none := by
  refine List.find?_eq_none.2 fun r _ hr => ?_
  have hoff : r.offset = off := by simpa using hr
  cases r <;> simp only [Reg.offset] at hoff <;> omega

theorem registerAccessLegal_aligned {off : Nat} (h : off % 4 = 0) : registerAccessLegal off 4 = true := by
  simp [registerAccessLegal, h]

/-- The offset of a bus address written as base plus a number of 32 bits. -/
theorem busOffset_base_add_toNat (s : State) {off : Nat} (h : off < 2 ^ 32) :
    (s.busOffset (s.params.base + BitVec.ofNat 32 off)).toNat = off := by
  rw [busOffset_base_add, BitVec.toNat_ofNat, Nat.mod_eq_of_lt h]

/-- An aligned offset of the register window without a register reads 0 (R26). -/
theorem memRead_unmappedRegister (s : State) {off : Nat} (h : 0x34 ≤ off) (h' : off ≤ 0xFFC) (ha : off % 4 = 0) :
    memRead (s.params.base + BitVec.ofNat 32 off) 4 s = (0, s) := by
  simp only [memRead, busOffset_base_add_toNat s (show off < 2 ^ 32 by omega),
    windowOf_register (show off ≤ 0xFFF by omega), registerAccessLegal_aligned ha, if_true, Reg.at_eq_none h]

/-- An aligned offset of the register window without a register takes no write (R26). -/
theorem memWrite_unmappedRegister (s : State) (v : Word) {off : Nat} (h : 0x34 ≤ off) (h' : off ≤ 0xFFC)
    (ha : off % 4 = 0) : memWrite (s.params.base + BitVec.ofNat 32 off) 4 v s = .next s := by
  simp only [memWrite, busOffset_base_add_toNat s (show off < 2 ^ 32 by omega),
    windowOf_register (show off ≤ 0xFFF by omega), registerAccessLegal_aligned ha, if_true, writeRegister,
    Reg.at_eq_none h]

/-- Settles O43: a read-only register has no write, and an offset beyond the last register has no register. -/
theorem readOnlyAndUnmappedRegisters : Obligations.ReadOnlyAndUnmappedRegisters := by
  unfold Obligations.ReadOnlyAndUnmappedRegisters
  refine ⟨fun s v r hr => ?readOnly, fun s v off h h' ha =>
    ⟨memRead_unmappedRegister s h h' ha, memWrite_unmappedRegister s v h h' ha⟩⟩
  case readOnly =>
    have hcmd : r ≠ .cmd := fun h => by simp [h] at hr
    rw [memWrite_plain hcmd]
    cases r with
    | id | status | errInfo | frameSeq | inCount | outW | outH => rfl
    | cmd | frameW | frameH | mag | lutSize | irqEn => simp at hr

/-- Settles O44: a configuration write is `writeConfig`, which looks at IDLE only. -/
theorem configurationWrites : Obligations.ConfigurationWrites := by
  unfold Obligations.ConfigurationWrites
  refine ⟨fun s v hi => ?inIdle, fun s v r hr hi => ?elsewhere⟩
  case inIdle =>
    have stored : ∀ (r : Reg) (updated : State), writeConfig r updated s = updated := fun r updated => if_pos hi
    refine ⟨?_, ?_, ?_, ?_⟩ <;> rw [memWrite_plain (by decide), writePlainRegister, stored,
      BitVec.setWidth_eq_extractLsb' (by omega)]
  case elsewhere =>
    have refused : ∀ updated : State,
        writeConfig r updated s = raiseError .writeActive (BitVec.ofNat 32 r.offset) s := fun updated => if_neg hi
    have hcmd : r ≠ .cmd := fun h => by simp [h] at hr
    rw [memWrite_plain hcmd]
    cases r with
    | frameW | frameH | mag | lutSize => exact congrArg _ (refused _)
    | id | cmd | status | errInfo | irqEn | frameSeq | inCount | outW | outH => simp at hr

/-- Settles O45: the write stores the field, and the level is that of the state stored. -/
theorem irqEnableWrites : Obligations.IrqEnableWrites := by
  unfold Obligations.IrqEnableWrites
  intro s v
  refine ⟨{ s with irqEn := v.extractLsb' 0 3 }, ?write, rfl, ?level⟩
  case write =>
    rw [memWrite_plain (by decide), writePlainRegister, BitVec.setWidth_eq_extractLsb' (by omega)]
  case level =>
    rw [irq_eq_true_iff]
    simp

end Sys2Proof.Machine

/-! The reset state, the reset input and the waiting of the HOST (O22, O52, O53). -/

namespace Sys2Proof.Machine

/-- Settles O22: reset is the power-on state of the reference parameters, in IDLE. -/
theorem resetStateMeetsInvariant : Obligations.ResetStateMeetsInvariant := by
  unfold Obligations.ResetStateMeetsInvariant
  exact ⟨State.powerOn_inv (by decide), fun hhold => absurd hhold (by decide)⟩

/-- LUT_SIZE at power-on: every legal `LUT_DEPTH` fits its 17 bits (R9, R52). -/
theorem powerOnReset_tableSize {s : State} (h : s.params.wellFormed = true) :
    (powerOnReset s).tableSize = s.params.lutDepth := by
  obtain ⟨_, hdepth, _⟩ := legal_bounds h
  exact (BitVec.toNat_ofNat _ _).trans (Nat.mod_eq_of_lt (by omega))

/-- Settles O52: the step is the power-on reset, whose values are those of the table. -/
theorem powerOnResetValues : Obligations.PowerOnReset := by
  unfold Obligations.PowerOnReset
  intro s rest hs hparams
  exact ⟨_, step_of_scheduled hs, rfl, rfl, rfl, rfl, rfl, rfl, powerOnReset_tableSize hparams, rfl, rfl, rfl, rfl, rfl,
    rfl, rfl, status_idle rfl rfl, irq_idle rfl, fun _ => ⟨rfl, rfl, rfl⟩, rfl⟩

/-! What the HOST learns of the ENGINE state from a STATUS word (R29). -/

/-- The codes tell the ENGINE states apart (R21). -/
theorem EngineState.code_inj {e e' : EngineState} : e.code = e'.code ↔ e = e' := by
  cases e <;> cases e' <;> decide

/-- STATUS.STATE of a STATUS word is the code of one state only (R29). -/
@[simp] theorem statusState_status_eq_code_iff (s : State) (e : EngineState) :
    statusState s.status = e.code ↔ s.engine = e := by
  rw [statusState, status_state, EngineState.code_inj]

/-- A 32-bit read of STATUS (R29). -/
theorem memRead_status (s : State) : memRead (s.regAddr .status) 4 s = (s.status, s) := memRead_regAddr s .status

/-! The HOST's turn for each operation that waits: one read of STATUS, or one look at `irq`. -/

theorem hostTurn_waitFor {s : State} {target : EngineState} {ops : List HostOp} (h : s.hostOps = .waitFor target :: ops) :
    hostTurn s = .next { s with
      hostLog := s.status :: s.hostLog
      hostOps := if s.engine = target then ops else s.hostOps } := by
  simp only [hostTurn, h, memRead_status, statusState_status_eq_code_iff]

theorem hostTurn_waitIrq {s : State} {ops : List HostOp} (h : s.hostOps = .waitIrq :: ops) :
    hostTurn s = .next { s with hostOps := if s.irq then ops else s.hostOps } := by
  simp only [hostTurn, h]

theorem hostTurn_checkRun {s : State} {ops : List HostOp} (h : s.hostOps = .checkRun :: ops) :
    hostTurn s = .next { s with
      hostLog := s.status :: s.hostLog
      hostOps := if s.engine = .run then ops else [.read (s.regAddr .errInfo) 4] } := by
  simp only [hostTurn, h, memRead_status, State.checkRunNext,
    statusState_status_eq_code_iff]

theorem hostTurn_frameLoop {s : State} {byIrq : Bool} {ops : List HostOp} (h : s.hostOps = .frameLoop byIrq :: ops) :
    hostTurn s = .next { s with
      hostLog := s.status :: s.hostLog
      hostOps := s.frameLoopNext byIrq s.status ops } := by
  simp only [hostTurn, h, memRead_status]

/-- The frame loop goes by the ENGINE state: the STATUS word tells it which that is (R172). -/
theorem frameLoopNext_status (s : State) (byIrq : Bool) (ops : List HostOp) :
    s.frameLoopNext byIrq s.status ops =
      if s.engine = .hold then s.handOff ++ (frameLoopEntry byIrq ++ ops)
      else if s.engine = .done then ops
      else if s.engine = .error then .read (s.regAddr .errInfo) 4 :: ops
      else frameLoopEntry byIrq ++ ops := by
  simp only [State.frameLoopNext, statusState_status_eq_code_iff, List.append_assoc]

/-- The hand-off of a raster, and what the HOST does after it (R172). -/
theorem handOff_append (s : State) (ops : List HostOp) :
    s.handOff ++ ops =
      .read (s.regAddr .frameSeq) 4 ::
        (List.range (s.outW * s.outH)).map (fun p => .read (s.params.base + BitVec.ofNat 32 (0x01000000 + 4 * p)) 4)
        ++ .write (s.regAddr .cmd) 4 0x00000002 :: ops := by
  simp [State.handOff]

/-- Settles O53: the step is the HOST's turn, and each waiting operation goes by the ENGINE state or by the level. -/
theorem waitPollsStatus : Obligations.WaitPollsStatus := by
  unfold Obligations.WaitPollsStatus
  refine ⟨?waitFor, ?waitIrq, ?checkRun, ?frameLoop⟩
  case waitFor =>
    intro s target rest ops hs ho
    exact (step_of_scheduled hs).trans (hostTurn_waitFor ho)
  case waitIrq =>
    intro s rest ops hs ho
    exact (step_of_scheduled hs).trans (hostTurn_waitIrq ho)
  case checkRun =>
    intro s rest ops hs ho
    exact (step_of_scheduled hs).trans (hostTurn_checkRun ho)
  case frameLoop =>
    intro s byIrq rest ops hs ho
    refine ((step_of_scheduled hs).trans (hostTurn_frameLoop ho)).trans ?_
    rw [frameLoopNext_status]
    congr 2
    cases he : s.engine with
    | hold => exact handOff_append s (frameLoopEntry byIrq ++ ops)
    | _ => rfl

end Sys2Proof.Machine

/-! What a step does to the raster and to the stream (O24, O27, O8). -/

namespace Sys2Proof.Machine

/-- What HOLD promises does not mention the agents' pending inputs, the HOST's log or the draw counter. -/
theorem State.holdShowsFrame.of_quiet {s u : State} (h : s.holdShowsFrame) (hq : Quiet s u) : u.holdShowsFrame := by
  obtain ⟨_, _, _, _, _, rfl⟩ := hq
  exact h

theorem State.holdShowsFrame.of_not_hold {s : State} (h : s.engine ≠ .hold) : s.holdShowsFrame :=
  fun hhold => absurd hhold h

/-- HOLD is entered by publishing the frame, and nothing that the frame shows is written in it (R34, R81, R155). -/
theorem State.holdShowsFrame.of_transition {s t : State} (h : s.holdShowsFrame) (ht : Transition s t) :
    t.holdShowsFrame := by
  cases ht with
  | stay | setIrqEn => exact h
  | publish hproc hbad => exact fun _ => publishFrame_showsFrame ((badIndices_eq_nil_iff s).1 hbad)
  | byte b hrun =>
    refine .of_not_hold ?_
    show (if _ then EngineState.proc else EngineState.run) ≠ .hold
    split <;> decide
  | error | lutRange | softReset | start | release | endOfStream => exact .of_not_hold (by simp)
  | setFrameW _ hidle | setFrameH _ hidle | setMag _ hidle | setLutSize _ hidle | writeLut _ _ _ hidle =>
    exact .of_not_hold (by simp [hidle])

/-- Settles O24: a step is the reset input, which leads to IDLE, or one transition. -/
theorem stepKeepsHoldShowsFrame : Obligations.StepKeepsHoldShowsFrame := by
  unfold Obligations.StepKeepsHoldShowsFrame
  intro s t hshows hstep
  obtain ⟨u, hquiet, ⟨_, rfl⟩ | htransition⟩ := step_transition hstep
  · exact .of_not_hold (show EngineState.idle ≠ .hold by decide)
  · exact (hshows.of_quiet hquiet).of_transition htransition

/-- Outside PROC no transition writes the raster: PROCESS_FRAME and the scrambling of a soft reset are in PROC only (R155,
R168). -/
theorem Transition.raster_eq {s t : State} (h : Transition s t) (hp : s.engine ≠ .proc) : t.raster = s.raster := by
  cases h with
  | softReset => rw [softReset_outside_proc hp, clearRun_raster]
  | publish hproc | lutRange hproc => exact absurd hproc hp
  | error => exact raiseError_raster _ _ _
  | _ => rfl

/-- Settles O27: with the reset input kept out, a step is one transition from a state outside PROC. -/
theorem rasterWrittenOnlyInProc : Obligations.RasterWrittenOnlyInProc := by
  unfold Obligations.RasterWrittenOnlyInProc
  intro s t hp hrst hstep a
  obtain ⟨u, hquiet, ⟨hhead, _⟩ | htransition⟩ := step_transition hstep
  · exact absurd hhead hrst
  · rw [htransition.raster_eq (by rwa [hquiet.engine_eq])]
    obtain ⟨_, _, _, _, _, rfl⟩ := hquiet
    rfl

/-! The stream: only the SOURCE takes a token off it (R86). -/

theorem Transition.stream_eq {s t : State} (h : Transition s t) : t.stream = s.stream := by
  cases h <;> simp

@[simp] theorem memRead_stream (addr : Word) (n : Nat) (s : State) : (memRead addr n s).2.stream = s.stream := by
  rcases memRead_state addr n s with ⟨d, h⟩ | h <;> rw [h]
  simp

theorem hostTurn_stream {s t : State} (h : hostTurn s = .next t) : t.stream = s.stream := by
  cases hops : s.hostOps with
  | nil =>
    rw [hostTurn_idle hops] at h
    cases h
    rfl
  | cons op ops =>
    cases op with
    | write addr n v =>
      rw [hostTurn_write hops] at h
      exact (memWrite_transition h).stream_eq
    | read addr n =>
      rw [hostTurn_read hops] at h
      cases h
      simp
    | waitFor target =>
      rw [hostTurn_waitFor hops] at h
      cases h
      rfl
    | waitIrq =>
      rw [hostTurn_waitIrq hops] at h
      cases h
      rfl
    | checkRun =>
      rw [hostTurn_checkRun hops] at h
      cases h
      rfl
    | frameLoop byIrq =>
      rw [hostTurn_frameLoop hops] at h
      cases h
      rfl

theorem engineTurn_stream {s t : State} (h : engineTurn s = .next t) : t.stream = s.stream := by
  by_cases hp : s.engine = .proc
  · rw [engineTurn_in_proc hp] at h
    exact (exec_transition h).stream_eq
  · rw [engineTurn_outside_proc hp] at h
    cases h
    rfl

theorem sourceTurn_outside_run {s : State} (h : s.engine ≠ .run) : sourceTurn s = .next s := by
  have hready : s.inReady = false := by simp [State.inReady, h]
  cases hs : s.stream with
  | nil => exact sourceTurn_idle hs
  | cons tok toks => simp [sourceTurn, hs, hready]

/-- The SOURCE's turn leaves the stream, or runs its first token in RUN (R95, R130). -/
theorem sourceTurn_stream {s t : State} (h : sourceTurn s = .next t) :
    t.stream = s.stream ∨
      (s.engine = .run ∧ ∃ tok, s.stream = tok :: t.stream ∧
        exec (decodeToken tok) { s with stream := t.stream } = .next t) := by
  by_cases hr : s.engine = .run
  · cases hs : s.stream with
    | nil =>
      rw [sourceTurn_idle hs] at h
      cases h
      exact .inl hs
    | cons tok toks =>
      rw [sourceTurn_in_run hs hr] at h
      have htoks : t.stream = toks := (exec_transition h).stream_eq
      rw [htoks]
      exact .inr ⟨hr, tok, rfl, h⟩
  · rw [sourceTurn_outside_run hr] at h
    cases h
    exact .inl rfl

@[simp] theorem nextTurn_stream (s : State) : (nextTurn s).2.stream = s.stream := by
  unfold nextTurn
  split <;> rfl

/-- Settles O8: the turns of the HOST, of the ENGINE and of the reset input leave the stream. -/
theorem streamKeepsOrder : Obligations.StreamKeepsOrder := by
  unfold Obligations.StreamKeepsOrder
  intro s t hstep
  unfold step at hstep
  rw [← nextTurn_stream s, ← (nextTurn_quiet s).engine_eq]
  cases hturn : (nextTurn s).1 with
  | rst =>
    rw [hturn] at hstep
    cases hstep
    exact .inl rfl
  | agent a =>
    rw [hturn] at hstep
    cases a with
    | host => exact .inl (hostTurn_stream hstep)
    | engine => exact .inl (engineTurn_stream hstep)
    | source => exact (sourceTurn_stream hstep).imp_right fun htaken => ⟨rfl, htaken⟩

end Sys2Proof.Machine

/-! PROCESS_FRAME pixel by pixel: the look-ups of the LUT, and the order of the pixels (O19, O39). -/

namespace Sys2Proof.Machine

/-- A LUT entry with an unwritten byte, by its three channels (R151). -/
theorem entryUnwritten_iff (s : State) (idx : Nat) :
    s.entryUnwritten idx = true ↔ ∃ c, c < 3 ∧ s.lut.read (3 * idx + c) = none := by
  simp only [State.entryUnwritten, Bool.or_eq_true, Option.isNone_iff_eq_none]
  constructor
  · rintro ((h | h) | h)
    exacts [⟨0, by decide, h⟩, ⟨1, by decide, h⟩, ⟨2, by decide, h⟩]
  · rintro ⟨c, hc, h⟩
    match c, hc with
    | 0, _ => exact .inl (.inl h)
    | 1, _ => exact .inl (.inr h)
    | 2, _ => exact .inr h

/-- The frame looks up an unwritten byte exactly when a pixel in range does (R67, R151). -/
theorem readsUnwrittenLut_iff (s : State) :
    s.readsUnwrittenLut = true ↔
      ∃ ox oy c, ox < s.outW ∧ oy < s.outH ∧ s.pixelIndex ox oy < s.tableSize ∧ c < 3 ∧
        s.lut.read (3 * s.pixelIndex ox oy + c) = none := by
  simp only [State.readsUnwrittenLut, List.any_eq_true, Bool.and_eq_true, decide_eq_true_eq, entryUnwritten_iff]
  constructor
  · rintro ⟨idx, hmem, hin, c, hc, hnone⟩
    obtain ⟨ox, oy, hx, hy, rfl⟩ := mem_frameIndices.1 hmem
    exact ⟨ox, oy, c, hx, hy, hin, hc, hnone⟩
  · rintro ⟨ox, oy, c, hx, hy, hin, hc, hnone⟩
    exact ⟨_, pixelIndex_mem_frameIndices hx hy, hin, c, hc, hnone⟩

/-- PROCESS_FRAME records the model fault of the frame it processes, published or not (R155). -/
theorem exec_processFrame_unwrittenLutRead {s t : State} (hp : s.engine = .proc)
    (h : exec .processFrame s = .next t) : t.unwrittenLutRead = (s.unwrittenLutRead || s.readsUnwrittenLut) := by
  by_cases hb : s.badIndices = []
  · simp only [exec, execProcessFrame, hp, ne_eq, not_true_eq_false, if_false, hb, if_true] at h
    cases h
    rfl
  · simp only [exec, execProcessFrame, hp, ne_eq, not_true_eq_false, if_false, hb] at h
    cases h
    exact raiseError_unwrittenLutRead _ _ _

/-- Settles O19: what is recorded, and when the frame looks up an unwritten byte. -/
theorem unwrittenLutReadRecorded : Obligations.UnwrittenLutReadRecorded := by
  unfold Obligations.UnwrittenLutReadRecorded
  intro s t hp hexec
  rw [exec_processFrame_unwrittenLutRead hp hexec, Bool.or_eq_true, readsUnwrittenLut_iff]

/-- An output column is that of one cell and one offset (R150). -/
theorem exists_unique_cell_offset {w m ox : Nat} (h : ox < w * m) :
    ∃ i ri, (i < w ∧ ri < m ∧ i * m + ri = ox) ∧ ∀ i' ri', ri' < m → i' * m + ri' = ox → i' = i ∧ ri' = ri := by
  have hm : 0 < m := Nat.pos_of_mul_pos_left (Nat.zero_lt_of_lt h)
  refine ⟨ox / m, ox % m, ⟨(Nat.div_lt_iff_lt_mul hm).2 h, Nat.mod_lt _ hm, Nat.div_add_mod' ox m⟩, ?_⟩
  rintro i ri hri rfl
  obtain ⟨hcell, hoffset⟩ := cell_offset (a := i) hri
  exact ⟨hcell.symm, hoffset.symm⟩

/-- The index at a cell and an offset (R149). -/
theorem pixelIndex_cell {s : State} {i ri j rj : Nat} (hi : ri < s.m) (hj : rj < s.m) :
    s.pixelIndex (i * s.m + ri) (j * s.m + rj) = s.roundedIndex (s.bil i j ri rj) := by
  obtain ⟨hi1, hi2⟩ := cell_offset (a := i) hi
  obtain ⟨hj1, hj2⟩ := cell_offset (a := j) hj
  rw [State.pixelIndex, hi1, hi2, hj1, hj2]

/-- A raster index is that of the pixel at its coordinates (R65). -/
theorem pixelCoords_inverse {s : State} {p : Nat} (h : p < s.outW * s.outH) :
    (s.pixelCoords p).1 < s.outW ∧ (s.pixelCoords p).2 < s.outH ∧
      (s.pixelCoords p).2 * s.outW + (s.pixelCoords p).1 = p :=
  ⟨Nat.mod_lt _ (Nat.pos_of_mul_pos_right (Nat.zero_lt_of_lt h)), Nat.div_lt_of_lt_mul h, Nat.div_add_mod' p s.outW⟩

/-- The raster index of a pixel lies in the frame (R65). -/
theorem rasterIndex_lt {s : State} {ox oy : Nat} (hx : ox < s.outW) (hy : oy < s.outH) :
    oy * s.outW + ox < s.outW * s.outH := by
  have hbytes := pixelByte_lt_rasterBytes (c := 0) hx hy (by decide)
  rw [State.rasterBytes, Nat.mul_assoc] at hbytes
  omega

/-- The index of a pixel stands at its raster index. -/
theorem frameIndices_getElem {s : State} {ox oy : Nat} (hx : ox < s.outW) (hy : oy < s.outH) :
    s.frameIndices[oy * s.outW + ox]? = some (s.pixelIndex ox oy) := by
  rw [State.frameIndices, List.getElem?_map, List.getElem?_range (rasterIndex_lt hx hy), Option.map_some,
    pixelCoords_index hx]

/-- Settles O39: cells and offsets, raster indices and coordinates, the list of indices, and the bytes of a pixel. -/
theorem everyPixelVisitedOnce : Obligations.EveryPixelVisitedOnce := by
  unfold Obligations.EveryPixelVisitedOnce
  intro s
  exact ⟨fun ox hx => exists_unique_cell_offset hx, fun i ri j rj hi hj => pixelIndex_cell hi hj,
    fun ox oy hx => pixelCoords_index hx, fun p hp => pixelCoords_inverse hp, by simp [State.frameIndices],
    fun ox oy hx hy => frameIndices_getElem hx hy, fun ox oy c hx _ hc hi => rasterByte_pixel hx hc hi⟩

end Sys2Proof.Machine

/-! Bus accesses: what an access does by its window, its width and its alignment (O46 to O51). -/

namespace Sys2Proof.Machine

theorem windowAccessLegal_iff {off n : Nat} :
    windowAccessLegal off n = true ↔ (n = 1 ∨ n = 2 ∨ n = 4) ∧ off % n = 0 := decide_eq_true_iff

theorem registerAccessLegal_iff {off n : Nat} : registerAccessLegal off n = true ↔ n = 4 ∧ off % 4 = 0 :=
  decide_eq_true_iff

/-! The windows of an offset (R61). -/

theorem windowOf_ne_registers {off : Nat} (h : 0xFFF < off) (a : Nat) : windowOf off ≠ .registers a := by
  unfold windowOf
  rw [if_neg (by omega)]
  split_ifs <;> simp

theorem windowOf_ne_lut {off : Nat} (h : ¬ (0x00100000 ≤ off ∧ off ≤ 0x001FFFFF)) (a : Nat) : windowOf off ≠ .lut a := by
  unfold windowOf
  rw [if_neg h]
  split_ifs <;> simp

theorem windowOf_unmapped {off : Nat}
    (h : (0x00001000 ≤ off ∧ off ≤ 0x000FFFFF) ∨ (0x00300000 ≤ off ∧ off ≤ 0x00FFFFFF) ∨ 0x02000000 ≤ off) :
    windowOf off = .unmapped := by
  rw [windowOf, if_neg (by omega), if_neg (by omega), if_neg (by omega), if_neg (by omega)]

/-- An aligned access that begins in a window whose bounds are multiples of 4 ends in it (R70, R71). -/
theorem aligned_access_within {off n lo q : Nat} (hn : n = 1 ∨ n = 2 ∨ n = 4) (ha : off % n = 0) (hlo : off < 4 * lo)
    (hq : q < n) : off + q < 4 * lo := by
  rcases hn with rfl | rfl | rfl <;> omega

/-! Illegal accesses (R70 to R72). -/

theorem memAccess_illegal_registers {s : State} {addr : Word} {n : Nat} (h : (s.busOffset addr).toNat ≤ 0xFFF)
    (hl : registerAccessLegal (s.busOffset addr).toNat n = false) (v : Word) :
    memRead addr n s = (0, raiseError .busAlign (s.busOffset addr) s) ∧
      memWrite addr n v s = .next (raiseError .busAlign (s.busOffset addr) s) := by
  simp [memRead, memWrite, windowOf_register h, hl]

theorem memAccess_illegal_window {s : State} {addr : Word} {n : Nat} (h : 0xFFF < (s.busOffset addr).toNat)
    (hl : windowAccessLegal (s.busOffset addr).toNat n = false) (v : Word) :
    memRead addr n s = (0, raiseError .busAlign (s.busOffset addr) s) ∧
      memWrite addr n v s = .next (raiseError .busAlign (s.busOffset addr) s) := by
  cases hw : windowOf (s.busOffset addr).toNat with
  | registers a => exact absurd hw (windowOf_ne_registers h a)
  | lut | frameBuf | raster | unmapped => simp [memRead, memWrite, hw, hl]

/-- Settles O46: the register window and the other offsets, each with the accesses it does not take. -/
theorem illegalAccessRaisesBusAlign : Obligations.IllegalAccessRaisesBusAlign := by
  unfold Obligations.IllegalAccessRaisesBusAlign
  rintro s addr v n (⟨hoff, hillegal⟩ | ⟨hoff, hillegal⟩)
  · have hl : registerAccessLegal (s.busOffset addr).toNat n = false := by
      rw [Bool.eq_false_iff, Ne, registerAccessLegal_iff]
      tauto
    exact memAccess_illegal_registers hoff hl v
  · have hl : windowAccessLegal (s.busOffset addr).toNat n = false := by
      rw [Bool.eq_false_iff, Ne, windowAccessLegal_iff]
      tauto
    exact memAccess_illegal_window hoff hl v

/-! Legal writes outside the register window (R71). -/

theorem memWrite_lutWindow {s : State} {addr : Word} {n : Nat} (h : 0x00100000 ≤ (s.busOffset addr).toNat)
    (h' : (s.busOffset addr).toNat ≤ 0x001FFFFF) (hl : windowAccessLegal (s.busOffset addr).toNat n = true) (v : Word) :
    memWrite addr n v s =
      if s.engine = .idle then .next { s with lut := s.lutWritten ((s.busOffset addr).toNat - 0x00100000) v n }
      else .next (raiseError .writeActive (s.busOffset addr) s) := by
  simp only [memWrite, windowOf_lut h h', hl, if_true]

/-- A legal write outside the registers and the LUT has no effect. -/
theorem memWrite_readOnlyWindow {s : State} {addr : Word} {n : Nat} (h : 0xFFF < (s.busOffset addr).toNat)
    (hlut : ¬ (0x00100000 ≤ (s.busOffset addr).toNat ∧ (s.busOffset addr).toNat ≤ 0x001FFFFF))
    (hl : windowAccessLegal (s.busOffset addr).toNat n = true) (v : Word) : memWrite addr n v s = .next s := by
  cases hw : windowOf (s.busOffset addr).toNat with
  | registers a => exact absurd hw (windowOf_ne_registers h a)
  | lut a => exact absurd hw (windowOf_ne_lut hlut a)
  | frameBuf | raster | unmapped => simp only [memWrite, hw, hl, if_true]

/-- No transition writes a LUT byte beyond the size backed (R62). -/
theorem Transition.lut_read_beyond {s t : State} (h : Transition s t) {x : Nat} (hx : s.lutBytes ≤ x) :
    t.lut.read x = s.lut.read x := by
  cases h with
  | writeLut a v n =>
    refine (lutWritten_read s a v n x).trans (if_neg ?_)
    omega
  | _ => simp

/-! What a byte reads as over the bus: nothing unmapped, and what has been written (R61, R62, R67). -/

theorem busByte_of_unmappedAt {s : State} {off : Nat} (h : s.unmappedAt off) (draw : Nat) : s.busByte draw off = 0 := by
  unfold State.busByte
  rcases h with ⟨h, h'⟩ | ⟨h, h'⟩ | ⟨h, h'⟩ | h
  · rw [windowOf_lut (by omega) h']
    exact if_neg (by rw [State.lutBytes]; omega)
  · rw [windowOf_frameBuf (by omega) h']
    exact if_neg (by rw [State.frameBufBytes]; omega)
  · rw [windowOf_raster (by omega) h']
    exact if_neg (by rw [State.rasterMemBytes]; omega)
  · rw [windowOf_unmapped h]

theorem rasterOpen_eq_false {s : State} {a : Nat} (h : s.engine ≠ .proc ∨ s.rasterBytes ≤ a) : s.rasterOpen a = false := by
  rw [State.rasterOpen, decide_eq_false_iff_not, not_and_or, Nat.not_lt]
  exact h

theorem busByte_of_busHolds {s : State} {off : Nat} {b : Byte} (h : s.busHolds off b) (draw : Nat) :
    s.busByte draw off = b := by
  unfold State.busByte
  rcases h with ⟨hlo, hhi, hbacked, hb⟩ | ⟨hlo, hhi, hbacked, hb⟩ | ⟨hlo, hhi, hbacked, hclosed, hb⟩
  · have hin : off - 0x00100000 < s.lutBytes := by rw [State.lutBytes]; omega
    simp only [windowOf_lut hlo hhi, hin, if_true, hb, Option.getD_some]
  · have hin : off - 0x00200000 < s.frameBufBytes := by rw [State.frameBufBytes]; omega
    simp only [windowOf_frameBuf hlo hhi, hin, if_true, hb, Option.getD_some]
  · have hin : off - 0x01000000 < s.rasterMemBytes := by rw [State.rasterMemBytes]; omega
    simp only [windowOf_raster hlo hhi, hin, if_true, rasterOpen_eq_false hclosed, Bool.false_eq_true, if_false, hb,
      Option.getD_some]

/-- A legal read whose bytes are the lanes of a word returns the word's low bytes (R68, R70). -/
theorem memRead_toNat_of_lanes {s : State} {addr v : Word} {n : Nat} (h : 0xFFF < (s.busOffset addr).toNat)
    (hl : windowAccessLegal (s.busOffset addr).toNat n = true)
    (hlanes : ∀ q, q < n → s.busByte (s.draws + q) ((s.busOffset addr).toNat + q) = byteLane v q) :
    (memRead addr n s).1.toNat = v.toNat % 2 ^ (8 * n) := by
  rw [memRead_window h hl, busBytes_of_lanes hlanes, BitVec.toNat_ofNat]
  exact Nat.mod_eq_of_lt (lt_of_le_of_lt (Nat.mod_le _ _) v.isLt)

/-- It returns the word itself if that is no wider than the read. -/
theorem memRead_of_lanes {s : State} {addr v : Word} {n : Nat} (h : 0xFFF < (s.busOffset addr).toNat)
    (hl : windowAccessLegal (s.busOffset addr).toNat n = true) (hv : v.toNat < 2 ^ (8 * n))
    (hlanes : ∀ q, q < n → s.busByte (s.draws + q) ((s.busOffset addr).toNat + q) = byteLane v q) :
    (memRead addr n s).1 = v :=
  BitVec.eq_of_toNat_eq ((memRead_toNat_of_lanes h hl hlanes).trans (Nat.mod_eq_of_lt hv))

theorem memRead_window_state {s : State} {addr : Word} {n : Nat} (h : 0xFFF < (s.busOffset addr).toNat)
    (hl : windowAccessLegal (s.busOffset addr).toNat n = true) :
    (memRead addr n s).2 = { s with draws := (memRead addr n s).2.draws } := by
  rw [memRead_window h hl]

/-- A legal read of unmapped bytes alone returns 0 (R62, R70). -/
theorem memRead_unmapped {s : State} {addr : Word} {n : Nat} (h : 0xFFF < (s.busOffset addr).toNat)
    (hl : windowAccessLegal (s.busOffset addr).toNat n = true)
    (hu : ∀ q, q < n → s.unmappedAt ((s.busOffset addr).toNat + q)) :
    memRead addr n s = (0, { s with draws := (memRead addr n s).2.draws }) := by
  have hdata : (memRead addr n s).1 = 0 :=
    memRead_of_lanes h hl (Nat.two_pow_pos _) fun q hq => by
      rw [busByte_of_unmappedAt (hu q hq)]
      exact BitVec.extractLsb'_zero.symm
  exact Prod.ext hdata (memRead_window_state h hl)

/-- Settles O48: unmapped bytes by lane and alone, the windows that take no write, and the LUT beyond the size backed. -/
theorem unmappedBytesAndReadOnlyWindows : Obligations.UnmappedBytesAndReadOnlyWindows := by
  unfold Obligations.UnmappedBytesAndReadOnlyWindows
  refine ⟨fun s draw off h => busByte_of_unmappedAt h draw, ?reads, ?readOnly, ?lutBeyond⟩
  case reads =>
    intro s addr n hn ha hoff
    have hl : windowAccessLegal (s.busOffset addr).toNat n = true := windowAccessLegal_iff.2 ⟨hn, ha⟩
    refine ⟨fun q hq hu => ?_, memRead_unmapped hoff hl⟩
    rw [memRead_lane hoff hl, if_pos hq, busByte_of_unmappedAt hu]
  case readOnly =>
    intro s addr v n hn ha hoff hlut
    exact memWrite_readOnlyWindow hoff hlut (windowAccessLegal_iff.2 ⟨hn, ha⟩) v
  case lutBeyond =>
    intro s t addr v n x _ hx hwrite
    exact (memWrite_transition hwrite).lut_read_beyond hx

/-! A write in the LUT window and a read of the same bytes (R66, R68, R71). -/

/-- The bus address of a LUT byte stands in the LUT window (R61). -/
theorem busOffset_lut_toNat (s : State) {a : Nat} (h : a ≤ 0xFFFFF) :
    (s.busOffset (s.params.base + BitVec.ofNat 32 (0x00100000 + a))).toNat = 0x00100000 + a :=
  busOffset_base_add_toNat s (by omega)

/-- An access is aligned in the LUT window as it is at its LUT byte. -/
theorem windowAccessLegal_lut {a n : Nat} (hn : n = 1 ∨ n = 2 ∨ n = 4) (ha : a % n = 0) :
    windowAccessLegal (0x00100000 + a) n = true := by
  refine windowAccessLegal_iff.2 ⟨hn, ?_⟩
  rcases hn with rfl | rfl | rfl <;> omega

/-- In IDLE a legal write in the LUT window stores the lanes backed, and nothing else (R62, R66). -/
theorem memWrite_lut_idle {s : State} {a n : Nat} (hi : s.engine = .idle) (hn : n = 1 ∨ n = 2 ∨ n = 4) (ha : a % n = 0)
    (hw : a ≤ 0xFFFFF) (v : Word) :
    memWrite (s.params.base + BitVec.ofNat 32 (0x00100000 + a)) n v s = .next { s with lut := s.lutWritten a v n } := by
  have hoff := busOffset_lut_toNat s hw
  rw [memWrite_lutWindow (by omega) (by omega) (by rw [hoff]; exact windowAccessLegal_lut hn ha), if_pos hi, hoff,
    Nat.add_sub_cancel_left]

/-- A byte just written reads back where it is backed, and an unbacked byte reads 0 (R62). -/
theorem busByte_lutWritten {s : State} {a n q : Nat} (v : Word) (hq : q < n) (hw : a + q ≤ 0xFFFFF) (draw : Nat) :
    State.busByte { s with lut := s.lutWritten a v n } draw (0x00100000 + a + q) =
      if a + q < 3 * s.params.lutDepth then byteLane v q else 0 := by
  split
  case isTrue hbacked =>
    refine busByte_of_busHolds (.inl ⟨by omega, by omega, ?_, ?_⟩) draw
    · show 0x00100000 + a + q < 0x00100000 + 3 * s.params.lutDepth
      omega
    · refine (lutWritten_read s a v n _).trans ?_
      rw [if_pos ⟨by omega, by omega, by rw [State.lutBytes]; omega⟩]
      congr 2
      omega
  case isFalse hbeyond =>
    refine busByte_of_unmappedAt (.inl ⟨?_, by omega⟩) draw
    show 0x00100000 + 3 * s.params.lutDepth ≤ 0x00100000 + a + q
    omega

/-- A legal read in the LUT window at the address of its LUT byte, lane by lane (R68, R70). -/
theorem memRead_lut_lane {s : State} {a n : Nat} (hn : n = 1 ∨ n = 2 ∨ n = 4) (ha : a % n = 0) (hw : a ≤ 0xFFFFF)
    (q : Nat) :
    (memRead (s.params.base + BitVec.ofNat 32 (0x00100000 + a)) n s).1.extractLsb' (8 * q) 8 =
      if q < n then s.busByte (s.draws + q) (0x00100000 + a + q) else 0 := by
  have hoff := busOffset_lut_toNat s hw
  rw [memRead_lane (by omega) (by rw [hoff]; exact windowAccessLegal_lut hn ha), hoff]

theorem memRead_lut_toNat_of_lanes {s : State} {a n : Nat} {v : Word} (hn : n = 1 ∨ n = 2 ∨ n = 4) (ha : a % n = 0)
    (hw : a ≤ 0xFFFFF) (hlanes : ∀ q, q < n → s.busByte (s.draws + q) (0x00100000 + a + q) = byteLane v q) :
    (memRead (s.params.base + BitVec.ofNat 32 (0x00100000 + a)) n s).1.toNat = v.toNat % 2 ^ (8 * n) := by
  have hoff := busOffset_lut_toNat s hw
  exact memRead_toNat_of_lanes (by omega) (by rw [hoff]; exact windowAccessLegal_lut hn ha) (by rwa [hoff])

/-- Settles O47: the LUT after the write by `lutWritten_read`, and the read back by `busByte_lutWritten`. -/
theorem lutWindowWrites : Obligations.LutWindowWrites := by
  unfold Obligations.LutWindowWrites
  refine ⟨fun s a n v _ hi hn ha hw => ?inIdle, fun s addr v n hi hn hlo hhi ha => ?elsewhere⟩
  case inIdle =>
    have hwithin : ∀ q, q < n → a + q ≤ 0xFFFFF := fun q hq =>
      Nat.le_of_lt_succ (aligned_access_within (lo := 0x40000) hn ha (by omega) hq)
    refine ⟨_, memWrite_lut_idle hi hn ha hw v, rfl, fun q hq hbacked => ?stored, fun x hx => ?kept, fun q _ => ?lanes,
      fun hbacked => ?whole⟩
    case stored =>
      refine (lutWritten_read s a v n _).trans ?_
      rw [if_pos ⟨by omega, by omega, hbacked⟩, Nat.add_sub_cancel_left]
      rfl
    case kept =>
      refine (lutWritten_read s a v n x).trans (if_neg ?_)
      rw [State.lutBytes]
      omega
    case lanes =>
      refine (memRead_lut_lane (s := { s with lut := s.lutWritten a v n }) hn ha hw q).trans ?_
      by_cases hq : q < n
      · rw [if_pos hq, busByte_lutWritten v hq (hwithin q hq)]
        simp only [hq, true_and]
        rfl
      · rw [if_neg hq, if_neg (fun h => hq h.1)]
    case whole =>
      refine memRead_lut_toNat_of_lanes (s := { s with lut := s.lutWritten a v n }) hn ha hw fun q hq => ?_
      rw [busByte_lutWritten v hq (hwithin q hq), if_pos (by omega)]
  case elsewhere =>
    rw [memWrite_lutWindow hlo hhi (windowAccessLegal_iff.2 ⟨hn, ha⟩), if_neg hi]

/-! Samples and pixels (R64, R65). -/

/-- The lanes of a word put together from bytes are those bytes (R68). -/
theorem byteLane_of_bytes (b0 b1 b2 b3 : Byte) :
    byteLane (b3 ++ b2 ++ b1 ++ b0) 0 = b0 ∧ byteLane (b3 ++ b2 ++ b1 ++ b0) 1 = b1 ∧
      byteLane (b3 ++ b2 ++ b1 ++ b0) 2 = b2 ∧ byteLane (b3 ++ b2 ++ b1 ++ b0) 3 = b3 := by
  unfold byteLane
  refine ⟨?_, ?_, ?_, ?_⟩
  · rw [BitVec.extractLsb'_append_eq_of_add_le (by omega), BitVec.extractLsb'_eq_self]
  · rw [BitVec.extractLsb'_append_eq_of_le (by omega), BitVec.extractLsb'_append_eq_of_add_le (by omega),
      BitVec.extractLsb'_eq_self]
  · iterate 2 rw [BitVec.extractLsb'_append_eq_of_le (by omega)]
    rw [BitVec.extractLsb'_append_eq_of_add_le (by omega), BitVec.extractLsb'_eq_self]
  · iterate 3 rw [BitVec.extractLsb'_append_eq_of_le (by omega)]
    rw [BitVec.extractLsb'_eq_self]

/-- The lanes of a sample are its two frame buffer bytes, low byte first (R68, R133). -/
theorem byteLane_sample (s : State) {k q : Nat} (hq : q < 2) :
    byteLane ((s.sample k).setWidth 32) q = s.frameByte (2 * k + q) := by
  have hlane : byteLane ((s.sample k).setWidth 32) q = (s.sample k).extractLsb' (8 * q) 8 := by
    unfold byteLane
    ext i hi
    have hbit : 8 * q + i < 32 := by omega
    simp [hbit]
  rw [hlane, State.sample]
  match q, hq with
  | 0, _ => rw [BitVec.extractLsb'_append_eq_of_add_le (by omega), BitVec.extractLsb'_eq_self]; rfl
  | 1, _ => rw [BitVec.extractLsb'_append_eq_of_le (by omega), BitVec.extractLsb'_eq_self]

/-- Settles O49: the two bytes read are those the sample is assembled from. -/
theorem sampleReadOverBus : Obligations.SampleReadOverBus := by
  unfold Obligations.SampleReadOverBus
  intro s k hparams hk hlow hhigh
  obtain ⟨_, _, hmax, _⟩ := legal_bounds hparams
  have hoff := busOffset_base_add_toNat s (show 0x00200000 + 2 * k < 2 ^ 32 by omega)
  have hv : ((s.sample k).setWidth 32).toNat < 2 ^ (8 * 2) := by
    rw [BitVec.toNat_setWidth_of_le (by omega)]
    exact (s.sample k).isLt
  have hlegal : windowAccessLegal (0x00200000 + 2 * k) 2 = true := windowAccessLegal_iff.2 ⟨by omega, by omega⟩
  refine memRead_of_lanes (by omega) (by rwa [hoff]) hv fun q hq => ?_
  have hreceived : (s.frameBuf.read (2 * k + q)).isSome := by
    obtain rfl | rfl : q = 0 ∨ q = 1 := by omega
    exacts [hlow, hhigh]
  obtain ⟨b, hb⟩ := Option.isSome_iff_exists.1 hreceived
  rw [hoff, Nat.add_assoc, busByte_frameBuf _ (by omega) (by rw [State.frameBufBytes]; omega), byteLane_sample s hq,
    State.frameByte, hb, Option.getD_some, Option.getD_some]

/-- In HOLD the bytes of the frame's raster are backed and lie in the raster window (R61, R166). -/
theorem State.Inv.raster_in_window {s : State} (h : s.Inv) (hh : s.engine = .hold) :
    s.rasterBytes ≤ s.rasterMemBytes ∧ s.rasterBytes ≤ 0x1000000 := by
  obtain ⟨_, _, _, hfits⟩ := h.run_bounds (.inr (.inr (.inl hh)))
  obtain ⟨_, _, _, hmax⟩ := legal_bounds h.paramsLegal
  refine ⟨hfits, hfits.trans ?_⟩
  rw [State.rasterMemBytes]
  omega

/-- A raster byte of the frame over the bus in HOLD (R62, R81). -/
theorem busByte_raster_in_hold {s : State} (hinv : s.Inv) (hhold : s.engine = .hold) {a : Nat} (ha : a < s.rasterBytes)
    {b : Byte} (hb : s.raster.read a = some b) (draw : Nat) : s.busByte draw (0x01000000 + a) = b := by
  obtain ⟨hbacked, hwindow⟩ := hinv.raster_in_window hhold
  rw [busByte_raster draw (by omega) (by omega) (by simp [hhold]), hb, Option.getD_some]

/-- A 32-bit read of four bytes of the frame's raster in HOLD (R68, R70). -/
theorem memRead_raster_in_hold {s : State} (hinv : s.Inv) (hhold : s.engine = .hold) {p : Nat}
    (hp : 4 * p + 3 < s.rasterBytes) {b0 b1 b2 b3 : Byte} (h0 : s.raster.read (4 * p) = some b0)
    (h1 : s.raster.read (4 * p + 1) = some b1) (h2 : s.raster.read (4 * p + 2) = some b2)
    (h3 : s.raster.read (4 * p + 3) = some b3) :
    (memRead (s.params.base + BitVec.ofNat 32 (0x01000000 + 4 * p)) 4 s).1 = b3 ++ b2 ++ b1 ++ b0 := by
  obtain ⟨_, hwindow⟩ := hinv.raster_in_window hhold
  obtain ⟨hlane0, hlane1, hlane2, hlane3⟩ := byteLane_of_bytes b0 b1 b2 b3
  have hoff := busOffset_base_add_toNat s (show 0x01000000 + 4 * p < 2 ^ 32 by omega)
  have hlegal : windowAccessLegal (0x01000000 + 4 * p) 4 = true := windowAccessLegal_iff.2 ⟨by omega, by omega⟩
  refine memRead_of_lanes (by omega) (by rwa [hoff]) (BitVec.isLt _) fun q hq => ?_
  rw [hoff, Nat.add_assoc]
  refine busByte_raster_in_hold hinv hhold (by omega) ?_ _
  match q, hq with
  | 0, _ => rwa [hlane0]
  | 1, _ => rwa [hlane1]
  | 2, _ => rwa [hlane2]
  | 3, _ => rwa [hlane3]

/-- Settles O50: the four bytes read are those that HOLD promises of the pixel. -/
theorem pixelReadOverBusInHold : Obligations.PixelReadOverBusInHold := by
  unfold Obligations.PixelReadOverBusInHold
  intro s ox oy r g b hinv hshows hhold hx hy hr hg hb
  obtain ⟨_, hcolor, halpha⟩ := hshows hhold ox oy hx hy
  exact memRead_raster_in_hold hinv hhold (pixelByte_lt_rasterBytes hx hy (by decide)) (hcolor 0 (by decide) r hr)
    (hcolor 1 (by decide) g hg) (hcolor 2 (by decide) b hb) halpha

/-! Legal reads (R70, R74). -/

/-- A legal read in the register window returns a word and leaves the state (R70). -/
theorem memRead_registers {s : State} {addr : Word} (h : (s.busOffset addr).toNat ≤ 0xFFF)
    (ha : (s.busOffset addr).toNat % 4 = 0) : (memRead addr 4 s).2 = s := by
  simp only [memRead, windowOf_register h, registerAccessLegal_aligned ha, if_true]

/-- No lane of a bus word lies beyond its fourth (R68). -/
theorem byteLane_beyond (v : Word) {q : Nat} (h : 4 ≤ q) : v.extractLsb' (8 * q) 8 = 0 := by
  ext i hi
  rw [BitVec.getElem_extractLsb', BitVec.getLsbD_of_ge _ _ (by omega)]
  simp

/-- The bytes of the memories stand past the register window (R61). -/
theorem State.busHolds.past_registers {s : State} {off : Nat} {b : Byte} (h : s.busHolds off b) : 0x00100000 ≤ off := by
  obtain ⟨h, _⟩ | ⟨h, _⟩ | ⟨h, _⟩ := h <;> omega

/-- What the byte at a bus offset reads as does not depend on a draw. -/
def State.busSettled (s : State) (off : Nat) : Prop := ∀ draw draw', s.busByte draw off = s.busByte draw' off

theorem busSettled_lut {s : State} {off : Nat} (h : 0x00100000 ≤ off) (h' : off ≤ 0x001FFFFF)
    (hb : (s.lut.read (off - 0x00100000)).isSome) : s.busSettled off := by
  obtain ⟨b, hb⟩ := Option.isSome_iff_exists.1 hb
  simp only [State.busSettled, State.busByte, windowOf_lut h h', hb, Option.getD_some, implies_true]

theorem busSettled_frameBuf {s : State} {off : Nat} (h : 0x00200000 ≤ off) (h' : off ≤ 0x002FFFFF)
    (hb : (s.frameBuf.read (off - 0x00200000)).isSome) : s.busSettled off := by
  obtain ⟨b, hb⟩ := Option.isSome_iff_exists.1 hb
  simp only [State.busSettled, State.busByte, windowOf_frameBuf h h', hb, Option.getD_some, implies_true]

theorem busSettled_raster {s : State} {off : Nat} (h : 0x01000000 ≤ off) (h' : off ≤ 0x01FFFFFF)
    (hclosed : s.engine ≠ .proc ∨ s.rasterBytes ≤ off - 0x01000000)
    (hb : (s.raster.read (off - 0x01000000)).isSome) : s.busSettled off := by
  obtain ⟨b, hb⟩ := Option.isSome_iff_exists.1 hb
  simp only [State.busSettled, State.busByte, windowOf_raster h h', rasterOpen_eq_false hclosed, hb, Option.getD_some,
    Bool.false_eq_true, if_false, implies_true]

/-- Bytes that take no draw read the same again (R74). -/
theorem memRead_repeats {s : State} {addr : Word} {n : Nat} (h : 0xFFF < (s.busOffset addr).toNat)
    (hl : windowAccessLegal (s.busOffset addr).toNat n = true)
    (hsettled : ∀ q, q < n → s.busSettled ((s.busOffset addr).toNat + q)) :
    (memRead addr n (memRead addr n s).2).1 = (memRead addr n s).1 := by
  have hstate : (memRead addr n s).2 = { s with draws := s.draws + n } := by rw [memRead_window h hl]
  rw [hstate, memRead_window (s := { s with draws := s.draws + n }) h hl, memRead_window h hl]
  refine congrArg (BitVec.ofNat 32) (busBytes_congr fun q hq => ?_)
  exact hsettled q hq _ _

/-- Settles O51: a read in the register window leaves the state, and outside it the lanes are the bytes. -/
theorem legalReadsHaveNoSideEffect : Obligations.LegalReadsHaveNoSideEffect := by
  unfold Obligations.LegalReadsHaveNoSideEffect
  intro s addr n hn ha hreg
  by_cases hoff : (s.busOffset addr).toNat ≤ 0xFFF
  case pos =>
    obtain rfl := hreg hoff
    have hstate := memRead_registers hoff ha
    refine ⟨by rw [hstate], fun q b hq hb => ?_, fun q hq => byteLane_beyond _ hq, fun _ => by rw [hstate], ?_, ?_, ?_⟩
    · have hpast := hb.past_registers
      omega
    all_goals
      intros
      rw [hstate]
  case neg =>
    have hpast : 0xFFF < (s.busOffset addr).toNat := Nat.lt_of_not_le hoff
    have hl : windowAccessLegal (s.busOffset addr).toNat n = true := windowAccessLegal_iff.2 ⟨hn, ha⟩
    refine ⟨memRead_window_state hpast hl, fun q b hq hb => ?held, fun q hq => ?beyond, fun h => absurd h hoff,
      fun hlo hhi hb => ?lut, fun hlo hhi hb => ?frameBuf, fun hlo hhi hclosed hb => ?raster⟩
    case held => rw [memRead_lane hpast hl, if_pos hq, busByte_of_busHolds hb]
    case beyond => rw [memRead_lane hpast hl, if_neg (by omega)]
    case lut =>
      refine memRead_repeats hpast hl fun q hq => ?_
      have hin := aligned_access_within (lo := 0x80000) hn ha (by omega) hq
      exact busSettled_lut (by omega) (by omega) (by rw [Nat.sub_add_comm hlo]; exact hb q hq)
    case frameBuf =>
      refine memRead_repeats hpast hl fun q hq => ?_
      have hin := aligned_access_within (lo := 0xC0000) hn ha (by omega) hq
      exact busSettled_frameBuf (by omega) (by omega) (by rw [Nat.sub_add_comm hlo]; exact hb q hq)
    case raster =>
      refine memRead_repeats hpast hl fun q hq => ?_
      have hin := aligned_access_within (lo := 0x800000) hn ha (by omega) hq
      have hbyte : (s.busOffset addr).toNat + q - 0x01000000 = (s.busOffset addr).toNat - 0x01000000 + q := by omega
      have hclosed' := hclosed.imp_right fun h => h.trans (Nat.le_add_right _ q)
      rw [← hbyte] at hclosed'
      exact busSettled_raster (by omega) (by omega) hclosed' (by rw [hbyte]; exact hb q hq)

end Sys2Proof.Machine

/-! The LUT load (O56). -/

namespace Sys2Proof.Machine

/-- The writes of a LUT load, each as a LUT byte and what to store there: file byte `k` for LUT byte `k` (R66). -/
def lutCells (file : List Byte) : List Host.Cell := (List.range file.length).map fun k => (k, file.getD k 0)

/-- The HOST's next operations are byte writes of the LUT, one a turn. -/
def State.withLutWrites (s : State) (cells : List Host.Cell) : State :=
  { s with
    hostOps := cells.map (fun c => .write (s.params.base + lutOffset c.1) 1 (c.2.setWidth 32)) ++ s.hostOps
    schedule := cells.map (fun _ => .agent .host) ++ s.schedule }

/-- The LUT after byte writes, the first one first. -/
def Memory.writeCells (m : Memory) (cells : List Host.Cell) : Memory := cells.foldl (fun m c => m.write c.1 c.2) m

/-- The writes of the rising LUT bytes below `n` store a byte at each, and none from `n` on. -/
theorem Memory.read_writeCells_range (m : Memory) (n : Nat) (f : Nat → Byte) (x : Nat) :
    (m.writeCells ((List.range n).map fun k => (k, f k))).read x = if x < n then some (f x) else m.read x := by
  induction n with
  | zero => simp [Memory.writeCells]
  | succ n ih =>
    have hlast : m.writeCells ((List.range (n + 1)).map fun k => (k, f k)) =
        (m.writeCells ((List.range n).map fun k => (k, f k))).write n (f n) := by
      simp [Memory.writeCells, List.range_succ]
    rw [hlast, Memory.read_write, ih]
    rcases Nat.lt_trichotomy x n with h | rfl | h
    · rw [if_neg (by omega), if_pos h, if_pos (by omega)]
    · rw [if_pos rfl, if_pos (by omega)]
    · rw [if_neg (by omega), if_neg (by omega), if_neg (by omega)]

/-- The primitives of the LUT load (R66, R100). -/
theorem expand_lutLoad (base : Word) (file : List Byte) :
    (lutLoad file).flatMap (ScriptOp.expand base) =
      (lutCells file).map fun c => busWrite base (lutOffset c.1) 1 (c.2.setWidth 32) := by
  rw [lutLoad, lutCells, List.flatMap_map, List.map_map]
  exact List.map_eq_flatMap.symm

/-- What bus writes are as the agents' inputs: HOST operations, no token, a turn of the HOST for each. -/
theorem inputs_of_busWrites (base : Word) (cells : List Host.Cell) (off v : Host.Cell → Word) :
    hostOpsOf (cells.map fun c => busWrite base (off c) 1 (v c)) = cells.map (fun c => .write (base + off c) 1 (v c)) ∧
      tokensOf (cells.map fun c => busWrite base (off c) 1 (v c)) = [] ∧
      turnsOf (cells.map fun c => busWrite base (off c) 1 (v c)) = cells.map fun _ => .agent .host := by
  refine ⟨?hosts, ?tokens, ?turns⟩
  case hosts => simp [hostOpsOf, busWrite, List.filterMap_map]
  case tokens => simp [tokensOf, busWrite]
  case turns =>
    rw [turnsOf, List.flatMap_map]
    exact List.map_eq_flatMap.symm

/-- The script of the LUT load places these writes (R66, R100). -/
theorem withScript_lutLoad (s : State) (file : List Byte) :
    s.withScript (lutLoad file) = s.withLutWrites (lutCells file) := by
  obtain ⟨hops, htokens, hturns⟩ := inputs_of_busWrites s.params.base (lutCells file) (fun c => lutOffset c.1)
    (fun c => c.2.setWidth 32)
  simp only [State.withScript, State.withLutWrites, expand_lutLoad, hops, htokens, hturns, List.nil_append]

/-- One byte write of the LUT in IDLE (R66, R68, R71). -/
theorem memWrite_lutByte {s : State} (hi : s.engine = .idle) {a : Nat} (ha : a < s.lutBytes) (hw : a ≤ 0xFFFFF) (b : Byte) :
    memWrite (s.params.base + lutOffset a) 1 (b.setWidth 32) s = .next { s with lut := s.lut.write a b } := by
  have hlane : byteLane (b.setWidth 32) 0 = b := by
    unfold byteLane
    ext i hi
    have hbit : i < 32 := by omega
    simp [hbit, hi]
  rw [lutOffset, memWrite_lut_idle hi (.inl rfl) (Nat.mod_one a) hw]
  simp only [State.lutWritten, Nat.add_zero, ha, if_true, hlane]

/-- The HOST's turn with a bus write next. -/
theorem step_hostWrite {s : State} {addr v : Word} {n : Nat} {rest : List Turn} {ops : List HostOp}
    (hs : s.schedule = .agent .host :: rest) (ho : s.hostOps = .write addr n v :: ops) :
    step s = memWrite addr n v { s with schedule := rest, hostOps := ops } :=
  (step_of_scheduled hs).trans (hostTurn_write ho)

/-- The HOST's turn with a LUT write next. -/
theorem step_withLutWrites {s : State} (hi : s.engine = .idle) {c : Host.Cell} {cells : List Host.Cell}
    (hc : c.1 < s.lutBytes) (hw : c.1 ≤ 0xFFFFF) :
    step (s.withLutWrites (c :: cells)) = .next (State.withLutWrites { s with lut := s.lut.write c.1 c.2 } cells) := by
  have hwrite : step (s.withLutWrites (c :: cells)) =
      memWrite (s.params.base + lutOffset c.1) 1 (c.2.setWidth 32) (s.withLutWrites cells) := step_hostWrite rfl rfl
  exact hwrite.trans (memWrite_lutByte (s := s.withLutWrites cells) hi hc hw c.2)

/-- As many steps as there are LUT writes perform them (R66). -/
theorem run_withLutWrites {s : State} (hi : s.engine = .idle) {cells : List Host.Cell}
    (hcells : ∀ c ∈ cells, c.1 < s.lutBytes) (hfits : s.lutBytes ≤ 0x100000) :
    Host.Core.run Sys2Proof.core cells.length (s.withLutWrites cells) =
      .next { s with lut := s.lut.writeCells cells } := by
  induction cells generalizing s with
  | nil => rfl
  | cons c cells ih =>
    obtain ⟨hc, hrest⟩ := List.forall_mem_cons.1 hcells
    have hstep : Sys2Proof.core.step (s.withLutWrites (c :: cells)) =
        .next (State.withLutWrites { s with lut := s.lut.write c.1 c.2 } cells) :=
      step_withLutWrites hi hc (by omega)
    exact (run_succ hstep).trans (ih (s := { s with lut := s.lut.write c.1 c.2 }) hi hrest hfits)

/-- Settles O56: the run performs the writes of the file's bytes, and the LUT then holds them. -/
theorem lutFileLoads : Obligations.LutFileLoads := by
  unfold Obligations.LutFileLoads
  intro s file hparams hi hlen
  obtain ⟨_, hdepth, _⟩ := legal_bounds hparams
  have hcells : ∀ c ∈ lutCells file, c.1 < s.lutBytes := by
    intro c hc
    obtain ⟨k, hk, rfl⟩ := List.mem_map.1 hc
    exact lt_of_lt_of_le (List.mem_range.1 hk) hlen
  have hrun := run_withLutWrites hi hcells (by rw [State.lutBytes]; omega)
  have hread := Memory.read_writeCells_range s.lut file.length (fun k => file.getD k 0)
  rw [← withScript_lutLoad, show (lutCells file).length = file.length by simp [lutCells]] at hrun
  refine ⟨_, hrun, rfl, fun k hk => ?loaded, fun k hk => (hread k).trans (if_neg (Nat.not_lt.2 hk))⟩
  case loaded =>
    refine (hread k).trans ?_
    rw [if_pos hk, List.getD_eq_getElem _ _ hk, List.getElem?_eq_getElem hk]

end Sys2Proof.Machine

/-! Decoding and encoding (O1, O2, O3, O4). -/

namespace Sys2Proof

/-! A token's instruction, by its KIND and DATA (R94). -/

theorem decodeToken_byte {t : Token} (hkind : tokenKind t = false) : decodeToken t = .byte (tokenData t) :=
  if_pos hkind

theorem decodeToken_endOfStream {t : Token} (hkind : tokenKind t = true) (hdata : tokenData t = 0) :
    decodeToken t = .endOfStream := by
  simp only [decodeToken, hkind, hdata, Bool.true_eq_false, if_false, if_true]

theorem decodeToken_reserved {t : Token} (hkind : tokenKind t = true) (hdata : tokenData t ≠ 0) :
    decodeToken t = .reservedToken (tokenData t) := by
  simp only [decodeToken, hkind, hdata, Bool.true_eq_false, if_false]

/-- A CMD word other than 0 to 3 is no instruction (R93, R98). -/
theorem decode_cmd_illegal {w : Word} (h0 : w ≠ 0x00000000) (h1 : w ≠ 0x00000001) (h2 : w ≠ 0x00000002)
    (h3 : w ≠ 0x00000003) : decode (.cmd w) = .error (.illegalCommand w) := by
  simp only [decode, decodeCommand, h0, h1, h2, h3, if_false]

/-! The beat decoded is the encoding of its instruction, format by format. -/

theorem encode_of_decode_cmd {w : Word} {i : Instr} (h : decode (.cmd w) = .ok i) :
    i.wellFormed = true ∧ encode i = .cmd w := by
  simp only [decode, decodeCommand] at h
  split_ifs at h with hnop hstart hrelease hreset
  · cases h
    exact ⟨rfl, congrArg Beat.cmd hnop.symm⟩
  · cases h
    exact ⟨rfl, congrArg Beat.cmd hstart.symm⟩
  · cases h
    exact ⟨rfl, congrArg Beat.cmd hrelease.symm⟩
  · cases h
    exact ⟨rfl, congrArg Beat.cmd hreset.symm⟩

theorem encode_decodeToken (t : Token) : (decodeToken t).wellFormed = true ∧ encode (decodeToken t) = .token t := by
  have hfields := tokenOf_fields t
  cases hkind : tokenKind t with
  | false =>
    rw [decodeToken_byte hkind]
    rw [hkind] at hfields
    exact ⟨rfl, congrArg Beat.token hfields⟩
  | true =>
    rw [hkind] at hfields
    by_cases hdata : tokenData t = 0
    · rw [decodeToken_endOfStream hkind hdata]
      rw [hdata] at hfields
      exact ⟨rfl, congrArg Beat.token hfields⟩
    · rw [decodeToken_reserved hkind hdata]
      exact ⟨decide_eq_true hdata, congrArg Beat.token hfields⟩

theorem encode_of_decode {beat : Beat} {i : Instr} (h : decode beat = .ok i) :
    i.wellFormed = true ∧ encode i = beat := by
  cases beat with
  | cmd w => exact encode_of_decode_cmd h
  | token t =>
    obtain rfl : decodeToken t = i := Except.ok.inj h
    exact encode_decodeToken t
  | engineStep =>
    obtain rfl : Instr.processFrame = i := Except.ok.inj h
    exact ⟨rfl, rfl⟩

/-! The encoding of a well-formed instruction decodes to it: its bytes hold its beat, and decode to it. -/

theorem encodedBytes_statement (i : Instr) : Laws.EncodedBytes.Statement i := by
  cases i with
  | nop => exact Laws.EncodedBytes.nop
  | start => exact Laws.EncodedBytes.start
  | release => exact Laws.EncodedBytes.release
  | reset => exact Laws.EncodedBytes.reset
  | byte b => exact Laws.EncodedBytes.byte b
  | endOfStream => exact Laws.EncodedBytes.endOfStream
  | reservedToken data => exact Laws.EncodedBytes.reservedToken data
  | processFrame => exact Laws.EncodedBytes.processFrame

theorem decode_encode {i : Instr} (h : i.wellFormed = true) : decode (encode i) = .ok i := by
  obtain ⟨hbeat, hdecode⟩ := encodedBytes_statement i
  have hbytes := hdecode h
  simp only [decodeBytes, hbeat] at hbytes
  exact hbytes

theorem decode_eq_ok_iff {beat : Beat} {i : Instr} :
    decode beat = .ok i ↔ (i.wellFormed = true ∧ encode i = beat) := by
  refine ⟨encode_of_decode, ?_⟩
  rintro ⟨hwf, rfl⟩
  exact decode_encode hwf

/-- Settles O1: decoding after encoding by the instruction's bytes, encoding after decoding by the beat's format. -/
theorem decodeInvertsEncode : Obligations.DecodeInvertsEncode := by
  unfold Obligations.DecodeInvertsEncode
  exact fun _ _ => decode_eq_ok_iff

/-- Settles O2: one clause for each kind of token; 0x100 has KIND 1 and DATA 0. -/
theorem tokensDecodeByKind : Obligations.TokensDecodeByKind := by
  unfold Obligations.TokensDecodeByKind
  refine fun t => ⟨?byte, ?endOfStream, ?reserved⟩
  case byte =>
    exact fun hkind => congrArg Except.ok (decodeToken_byte hkind)
  case endOfStream =>
    rintro rfl
    exact congrArg Except.ok (decodeToken_endOfStream rfl rfl)
  case reserved =>
    exact fun hkind hdata => congrArg Except.ok (decodeToken_reserved hkind hdata)

/-- Settles O4: each word written out is the encoding of its instruction. -/
theorem writtenWordsDecode : Obligations.WrittenWordsDecode := by
  unfold Obligations.WrittenWordsDecode
  simp only [decode_eq_ok_iff]
  exact ⟨⟨rfl, rfl⟩, ⟨rfl, rfl⟩, ⟨rfl, rfl⟩, ⟨rfl, rfl⟩, ⟨rfl, rfl⟩, ⟨rfl, rfl⟩, ⟨rfl, rfl⟩⟩

end Sys2Proof

namespace Sys2Proof.Machine

/-- A CMD write of an instruction's encoding runs the instruction. -/
theorem writeCmd_of_encoded {w : Word} {i : Instr} (hwf : i.wellFormed = true) (hword : encode i = .cmd w) (s : State) :
    writeCmd w s = exec i s :=
  writeCmd_of_decoded (decode_eq_ok_iff.2 ⟨hwf, hword⟩) s

/-- Settles O3: the word is the encoding of one of the four commands, or it does not decode. -/
theorem commandWritesDecode : Obligations.CommandWritesDecode := by
  unfold Obligations.CommandWritesDecode
  intro s w
  rw [memWrite_cmd]
  split_ifs with hnop hstart hrelease hreset
  · exact writeCmd_of_encoded (i := .nop) rfl (congrArg Beat.cmd hnop.symm) s
  · exact writeCmd_of_encoded (i := .start) rfl (congrArg Beat.cmd hstart.symm) s
  · exact writeCmd_of_encoded (i := .release) rfl (congrArg Beat.cmd hrelease.symm) s
  · exact writeCmd_of_encoded (i := .reset) rfl (congrArg Beat.cmd hreset.symm) s
  · exact writeCmd_of_illegal (decode_cmd_illegal hnop hstart hrelease hreset) s

end Sys2Proof.Machine

/-! BUILD (40_lut_builder.md): the raw code, the segment, the fraction and the channel, then the statements about them. -/

namespace Sys2Proof.Machine

/-! The raw code (R114, R115): the exact quotient's floor is the quotient of naturals. -/

theorem lutFrac_mul_floor {tableSize : Nat} (h : 1 ≤ tableSize) (i scale : Nat) :
    (lutFrac tableSize i * scale).floor = ((i * scale / (tableSize - 1) : Nat) : Int) := by
  have hquot : lutFrac tableSize i * scale = ((i * scale : Nat) : Rat) / ((tableSize - 1 : Nat) : Rat) := by
    rw [lutFrac, Nat.cast_mul, Nat.cast_sub h, Nat.cast_one, div_mul_eq_mul_div]
  rw [hquot]
  exact Rat.floor_natCast_div_natCast _ _

theorem rawCode_eq {tableSize : Nat} (h : 1 ≤ tableSize) (i : Nat) :
    rawCode tableSize i = ((i * 16384 / (tableSize - 1)) &&& 0xFFFC) <<< 2 := by
  have hfloor := lutFrac_mul_floor h i 16384
  rw [Nat.cast_ofNat] at hfloor
  rw [rawCode, hfloor, Int.toNat_natCast]

/-- The code before its mask (R115); `i < tableSize` makes the fraction at most 1. -/
theorem unmaskedCode_le {tableSize i : Nat} (hi : i < tableSize) : i * 16384 / (tableSize - 1) ≤ 16384 :=
  Nat.div_le_of_le_mul (Nat.mul_le_mul_right _ (Nat.le_sub_one_of_lt hi))

theorem unmaskedCode_last {tableSize : Nat} (h : 2 ≤ tableSize) :
    (tableSize - 1) * 16384 / (tableSize - 1) = 16384 :=
  Nat.mul_div_cancel_left _ (by omega)

/-- The mask clears bits 1 and 0, and the shift multiplies by 4 (R115). -/
theorem maskedCode_mod (x : Nat) : ((x &&& 0xFFFC) <<< 2) % 16 = 0 := by
  have hmask : (x &&& 0xFFFC) % 2 ^ 2 = 0 := by
    rw [Nat.and_mod_two_pow]
    exact Nat.and_zero _
  rw [Nat.shiftLeft_eq]
  omega

theorem maskedCode_le (x : Nat) : (x &&& 0xFFFC) <<< 2 ≤ 4 * x := by
  have hmask : x &&& 0xFFFC ≤ x := Nat.and_le_left
  rw [Nat.shiftLeft_eq]
  omega

/-- Settles O57: the code as a quotient of naturals by `rawCode_eq`, then what mask and shift keep. -/
theorem rawCodeRange : Obligations.RawCodeRange := by
  unfold Obligations.RawCodeRange
  intro tableSize i htwo hi
  have hone : 1 ≤ tableSize := by omega
  refine ⟨rawCode_eq hone i, unmaskedCode_le hi, ?multiple, ?bound, ?last⟩
  case multiple =>
    rw [rawCode_eq hone]
    exact maskedCode_mod _
  case bound =>
    rw [rawCode_eq hone]
    exact (maskedCode_le _).trans (Nat.mul_le_mul_left 4 (unmaskedCode_le hi))
  case last =>
    rw [rawCode_eq hone, unmaskedCode_last htwo]
    rfl

/-! The segment (R117). -/

/-- The first stop strictly above the temperature is the upper end. -/
theorem selectSegment_of_first {stops : List ColorStop} {hi : ColorStop} {c : Rat} {k : Nat}
    (hget : stops[k]? = some hi) (habove : c < hi.t)
    (hfirst : ∀ j stop, j < k → stops[j]? = some stop → stop.t ≤ c) :
    selectSegment stops c = { lower := k - 1, upper := k, forced := false } := by
  obtain ⟨hk, rfl⟩ := List.getElem?_eq_some_iff.1 hget
  have hfind : stops.findIdx? (fun stop => decide (c < stop.t)) = some k := by
    refine List.findIdx?_eq_some_iff_getElem.2 ⟨hk, decide_eq_true habove, fun j hj => ?_⟩
    have hle := hfirst j _ hj (List.getElem?_eq_getElem (hj.trans hk))
    simpa only [decide_eq_true_eq, not_lt] using hle
  simp only [selectSegment, hfind, Nat.min_eq_left (Nat.le_sub_one_of_lt hk)]

/-- With no stop above the temperature the last segment is forced (R118). -/
theorem selectSegment_of_none {stops : List ColorStop} {c : Rat} (hnone : ∀ stop ∈ stops, stop.t ≤ c) :
    selectSegment stops c = { lower := stops.length - 2, upper := stops.length - 1, forced := true } := by
  have hfind : stops.findIdx? (fun stop => decide (c < stop.t)) = none :=
    List.findIdx?_eq_none_iff.2 fun stop hmem => decide_eq_false (not_lt.2 (hnone stop hmem))
  simp only [selectSegment, hfind]

/-- Both ends of the segment are stops of the table. -/
theorem selectSegment_within {stops : List ColorStop} (hne : stops ≠ []) (c : Rat) :
    (selectSegment stops c).lower < stops.length ∧ (selectSegment stops c).upper < stops.length := by
  have hlen : 0 < stops.length := List.length_pos_iff.2 hne
  unfold selectSegment
  split
  case h_1 k hfind =>
    obtain ⟨hk, -⟩ := List.findIdx?_eq_some_iff_getElem.1 hfind
    exact ⟨(Nat.sub_le k 1).trans_lt hk, (Nat.min_le_left k _).trans_lt hk⟩
  case h_2 => exact ⟨Nat.sub_lt hlen Nat.two_pos, Nat.sub_lt hlen Nat.one_pos⟩

/-! The fraction (R118). -/

theorem segmentFraction_forced {seg : Segment} (h : seg.forced = true) (lo hi : ColorStop) (c : Rat) :
    segmentFraction seg lo hi c = 1 := if_pos h

/-- The clamp does not act on a fraction that lies in `[0, 1]`. -/
theorem segmentFraction_eq_quotient {seg : Segment} {lo hi : ColorStop} {c : Rat} (hforced : seg.forced = false)
    (hends : seg.lower ≠ seg.upper) (h0 : 0 ≤ (c - lo.t) / (hi.t - lo.t)) (h1 : (c - lo.t) / (hi.t - lo.t) ≤ 1) :
    segmentFraction seg lo hi c = (c - lo.t) / (hi.t - lo.t) := by
  rw [segmentFraction, hforced, if_neg Bool.false_ne_true, if_neg hends, clampRat, max_eq_left h0, min_eq_left h1]

theorem segmentFraction_mem_unit (seg : Segment) (lo hi : ColorStop) (c : Rat) :
    0 ≤ segmentFraction seg lo hi c ∧ segmentFraction seg lo hi c ≤ 1 := by
  unfold segmentFraction
  split_ifs with hforced hends
  · exact ⟨zero_le_one, le_rfl⟩
  · exact ⟨le_rfl, zero_le_one⟩
  · exact ⟨le_min (le_max_right _ _) zero_le_one, min_le_right _ _⟩

/-- A temperature from the lower threshold up to, but not at, the upper one is in between by a fraction in `[0, 1)`. -/
theorem quotient_mem_unit {lower upper c : Rat} (hlo : lower ≤ c) (hhi : c < upper) :
    0 ≤ (c - lower) / (upper - lower) ∧ (c - lower) / (upper - lower) < 1 := by
  have hpos : 0 < upper - lower := sub_pos.2 (hlo.trans_lt hhi)
  exact ⟨div_nonneg (sub_nonneg.2 hlo) hpos.le, (div_lt_one hpos).2 (sub_lt_sub_right hhi lower)⟩

/-! Rounding half up (R14), and the channel (R120). -/

theorem roundHalfUp_natCast (n : Nat) : roundHalfUp (n : Rat) = n := by
  have hfloor : ⌊(n : Rat) + 1 / 2⌋ = n + ⌊(1 / 2 : Rat)⌋ := Int.floor_natCast_add n _
  have hhalf : ⌊(1 / 2 : Rat)⌋ = 0 := by norm_num
  rw [hhalf, add_zero] at hfloor
  exact hfloor

theorem roundHalfUp_mono {p q : Rat} (h : p ≤ q) : roundHalfUp p ≤ roundHalfUp q :=
  Rat.floor_monotone (add_le_add_left h _)

/-- A channel before its rounding (R120). -/
def blendValue (lo hi : Byte) (tCol : Rat) : Rat := (lo.toNat : Rat) * (1 - tCol) + (hi.toNat : Rat) * tCol

/-- The clamp to `[0, 255]` does not act on a rounded value between two bytes. -/
theorem toNat_blendChannel {lo hi : Byte} {tCol : Rat} {a b : Nat} (ha : (a : Rat) ≤ blendValue lo hi tCol)
    (hb : blendValue lo hi tCol ≤ (b : Rat)) (hbyte : b ≤ 255) :
    ((blendChannel lo hi tCol).toNat : Int) = roundHalfUp (blendValue lo hi tCol) ∧
    a ≤ (blendChannel lo hi tCol).toNat ∧ (blendChannel lo hi tCol).toNat ≤ b := by
  have hlow := roundHalfUp_mono ha
  have hhigh := roundHalfUp_mono hb
  rw [roundHalfUp_natCast] at hlow hhigh
  have hclamp : blendChannel lo hi tCol = BitVec.ofInt 8 (roundHalfUp (blendValue lo hi tCol)) := by
    rw [blendChannel, ← blendValue, max_eq_left (by omega), min_eq_left (by omega)]
  have hround : ((blendChannel lo hi tCol).toNat : Int) = roundHalfUp (blendValue lo hi tCol) := by
    rw [hclamp, BitVec.toNat_ofInt]
    omega
  exact ⟨hround, by omega, by omega⟩

/-- A value that is a byte needs no rounding. -/
theorem blendChannel_of_exact {lo hi v : Byte} {tCol : Rat} (h : blendValue lo hi tCol = (v.toNat : Rat)) :
    blendChannel lo hi tCol = v := by
  obtain ⟨-, hge, hle⟩ := toNat_blendChannel h.ge h.le (Nat.le_of_lt_succ v.isLt)
  exact BitVec.eq_of_toNat_eq (Nat.le_antisymm hle hge)

theorem blendChannel_self (v : Byte) (tCol : Rat) : blendChannel v v tCol = v :=
  blendChannel_of_exact (by unfold blendValue; ring)

theorem blendChannel_one (lo hi : Byte) : blendChannel lo hi 1 = hi :=
  blendChannel_of_exact (by unfold blendValue; ring)

/-- For a fraction in `[0, 1]` the value is a convex combination of the two channels. -/
theorem blendValue_between (lo hi : Byte) {tCol : Rat} (h0 : 0 ≤ tCol) (h1 : tCol ≤ 1) :
    ((min lo.toNat hi.toNat : Nat) : Rat) ≤ blendValue lo hi tCol ∧
    blendValue lo hi tCol ≤ ((max lo.toNat hi.toNat : Nat) : Rat) := by
  have hcombo : blendValue lo hi tCol = (1 - tCol) • (lo.toNat : Rat) + tCol • (hi.toNat : Rat) := by
    simp only [blendValue, smul_eq_mul, mul_comm]
  rw [hcombo, Nat.cast_min, Nat.cast_max]
  have hweights : 1 - tCol + tCol = 1 := sub_add_cancel 1 tCol
  exact ⟨Convex.min_le_combo _ _ (sub_nonneg.2 h1) h0 hweights, Convex.combo_le_max _ _ (sub_nonneg.2 h1) h0 hweights⟩

/-! The entry (R117 to R120), by its segment. -/

theorem lutEntryBytes_of_segment {stops : List ColorStop} {tableSize i : Nat} {seg : Segment} {lo hi : ColorStop}
    {tCol : Rat} (hseg : selectSegment stops (lutCelsius tableSize i) = seg) (hlo : stops[seg.lower]? = some lo)
    (hhi : stops[seg.upper]? = some hi) (hfrac : segmentFraction seg lo hi (lutCelsius tableSize i) = tCol) :
    lutEntryBytes stops tableSize i =
      [blendChannel lo.r hi.r tCol, blendChannel lo.g hi.g tCol, blendChannel lo.b hi.b tCol] := by
  simp only [lutEntryBytes, hseg, hlo, hhi, hfrac]

/-- A segment with one end gives the color of its stop, whatever the fraction. -/
theorem lutEntryBytes_of_degenerate {stops : List ColorStop} {tableSize i : Nat} {seg : Segment} {stop : ColorStop}
    (hseg : selectSegment stops (lutCelsius tableSize i) = seg) (hlo : stops[seg.lower]? = some stop)
    (hhi : stops[seg.upper]? = some stop) : lutEntryBytes stops tableSize i = [stop.r, stop.g, stop.b] := by
  rw [lutEntryBytes_of_segment hseg hlo hhi rfl, blendChannel_self, blendChannel_self, blendChannel_self]

theorem lutEntryBytes_length {stops : List ColorStop} (hne : stops ≠ []) (tableSize i : Nat) :
    (lutEntryBytes stops tableSize i).length = 3 := by
  obtain ⟨hlower, hupper⟩ := selectSegment_within hne (lutCelsius tableSize i)
  rw [lutEntryBytes_of_segment rfl (List.getElem?_eq_getElem hlower) (List.getElem?_eq_getElem hupper) rfl]
  rfl

/-! The whole of BUILD (R113, R121). -/

theorem buildLut_noStops (tableSize : Nat) : buildLut [] tableSize = .error .noStops := if_pos rfl

theorem buildLut_tableTooSmall {stops : List ColorStop} {tableSize : Nat} (hne : stops ≠ []) (h : tableSize < 2) :
    buildLut stops tableSize = .error (.tableTooSmall tableSize) := by
  rw [buildLut, if_neg hne, if_pos h]

theorem buildLut_defined {stops : List ColorStop} {tableSize : Nat} (hne : stops ≠ []) (h : 2 ≤ tableSize) :
    buildLut stops tableSize = .ok ((List.range tableSize).flatMap (lutEntryBytes stops tableSize)) := by
  rw [buildLut, if_neg hne, if_neg (not_lt.2 h)]

/-- Settles O58: refused by the reason that comes first, and else `tableSize` entries of three bytes each. -/
theorem buildDomain : Obligations.BuildDomain := by
  unfold Obligations.BuildDomain
  refine fun stops tableSize => ⟨fun hrefused => ?refused, fun hne htwo => ⟨_, buildLut_defined hne htwo, ?length⟩⟩
  case refused =>
    by_cases hnil : stops = []
    · exact ⟨_, hnil ▸ buildLut_noStops tableSize⟩
    · exact ⟨_, buildLut_tableTooSmall hnil (hrefused.resolve_left hnil)⟩
  case length =>
    simp only [List.length_flatMap, lutEntryBytes_length hne, List.map_const', List.length_range, List.sum_replicate,
      smul_eq_mul]
    exact Nat.mul_comm _ _

/-- Settles O59: the forced fraction is 1 for every table; a table of one stop has a segment of one end. -/
theorem terminalColorReused : Obligations.TerminalColorReused := by
  unfold Obligations.TerminalColorReused
  refine ⟨fun stops last tableSize i hlast hnone => ?terminal, fun stop tableSize i => ?oneStop⟩
  case terminal =>
    rw [List.getLast?_eq_getElem?] at hlast
    have hlen : stops.length - 2 < stops.length := by
      obtain ⟨hlt, -⟩ := List.getElem?_eq_some_iff.1 hlast
      omega
    rw [lutEntryBytes_of_segment (selectSegment_of_none hnone) (List.getElem?_eq_getElem hlen) hlast
      (segmentFraction_forced rfl _ _ _), blendChannel_one, blendChannel_one, blendChannel_one]
  case oneStop =>
    have hstop : ∀ k, k < [stop].length → [stop][k]? = some stop := fun k hk => by
      obtain rfl : k = 0 := Nat.lt_one_iff.1 hk
      rfl
    obtain ⟨hlower, hupper⟩ := selectSegment_within (List.cons_ne_nil stop []) (lutCelsius tableSize i)
    exact lutEntryBytes_of_degenerate rfl (hstop _ hlower) (hstop _ hupper)

/-- Settles O60: the segment by `selectSegment_of_first`, its fraction by `quotient_mem_unit`, and the channel by
`toNat_blendChannel`. -/
theorem channelBetweenStops : Obligations.ChannelBetweenStops := by
  unfold Obligations.ChannelBetweenStops
  refine ⟨fun _ _ => rfl, fun stops hi tableSize i k hget habove hfirst => ⟨?firstStop, ?between⟩,
    segmentFraction_mem_unit, fun lo hi tCol h0 h1 => ?channel⟩
  case firstStop =>
    rintro rfl
    exact lutEntryBytes_of_degenerate (selectSegment_of_first hget habove hfirst) hget hget
  case between =>
    rintro lo u hk hlo rfl
    obtain ⟨hge, hlt⟩ := quotient_mem_unit (hfirst (k - 1) lo (by omega) hlo) habove
    exact ⟨hge, hlt, lutEntryBytes_of_segment (selectSegment_of_first hget habove hfirst) hlo hget
      (segmentFraction_eq_quotient rfl (Nat.sub_one_lt_of_lt hk).ne hge hlt.le)⟩
  case channel =>
    obtain ⟨hmin, hmax⟩ := blendValue_between lo hi h0 h1
    have hbyte : max lo.toNat hi.toNat ≤ 255 := by omega
    obtain ⟨hround, hlow, hhigh⟩ := toNat_blendChannel hmin hmax hbyte
    exact ⟨hlow, hhigh, hround⟩

end Sys2Proof.Machine

/-! The tokens of the SOURCE in RUN (O7, O14, O15, O16). -/

namespace Sys2Proof.Machine

/-! What each token does in RUN, the one state in which the port is ready (R130). -/

theorem exec_byte_in_run {s : State} (hr : s.engine = .run) (b : Byte) :
    exec (.byte b) s = .next { s with
      frameBuf := s.frameBuf.write s.inCount.toNat b
      inCount := s.inCount + 1
      engine := if (s.inCount + 1).toNat = s.frameBytes then .proc else .run } :=
  if_pos ((State.inReady_iff s).2 hr)

theorem exec_endOfStream_in_run {s : State} (hr : s.engine = .run) :
    exec .endOfStream s = .next { s with engine := .done } :=
  if_pos ((State.inReady_iff s).2 hr)

theorem exec_reservedToken_in_run {s : State} (hr : s.engine = .run) (data : Byte) :
    exec (.reservedToken data) s = .next { s with
      errCode := .illegalToken, errInfo := (tokenOf true data).setWidth 32, engine := .error } := by
  have hraise : exec (.reservedToken data) s =
      .next (raiseError .illegalToken ((tokenOf true data).setWidth 32) s) := if_pos ((State.inReady_iff s).2 hr)
  rw [hraise, raiseError_outside_error (by simp [hr])]

/-- ERRINFO of ILLEGAL_TOKEN as a number (R137, R180). -/
theorem tokenOf_reserved_setWidth (data : Byte) :
    (tokenOf true data).setWidth 32 = BitVec.ofNat 32 (256 + data.toNat) := by
  rw [← BitVec.ofNat_toNat, tokenOf_toNat]
  rfl

/-- Settles O7: outside RUN the SOURCE's turn changes nothing, and in RUN the token's instruction answers a state with the
rest of the stream. -/
theorem tokensWaitOutsideRun : Obligations.TokensWaitOutsideRun := by
  unfold Obligations.TokensWaitOutsideRun
  refine ⟨State.inReady_iff, ?waits, ?taken⟩
  case waits =>
    intro s rest hr hs
    exact (step_of_scheduled hs).trans (sourceTurn_outside_run hr)
  case taken =>
    intro s tok toks rest hr hs ht
    obtain ⟨t, hexec, _⟩ := exec_effect (decodeToken tok) { s with schedule := rest, stream := toks }
    exact ⟨t, ((step_of_scheduled hs).trans (sourceTurn_in_run ht hr)).trans hexec, (exec_transition hexec).stream_eq⟩

/-- Settles O14: a token with KIND 0 is BYTE, and BYTE in RUN is one write of the frame buffer. -/
theorem byteRule : Obligations.ByteRule := by
  unfold Obligations.ByteRule
  intro s b
  refine ⟨decode_encode (i := .byte b) rfl, fun hr => ⟨_, exec_byte_in_run hr b, rfl, ?stored, rfl⟩⟩
  case stored => exact Memory.read_write s.frameBuf s.inCount.toNat b

/-- Settles O15: END is the encoding of its own instruction, which in RUN enters DONE. -/
theorem endRule : Obligations.EndRule := by
  unfold Obligations.EndRule
  exact ⟨decode_encode (i := .endOfStream) rfl, fun _ hr => exec_endOfStream_in_run hr⟩

/-- Settles O16: a token with KIND 1 and DATA other than 0 encodes a reserved token, and its number is the ERRINFO. -/
theorem reservedTokenRule : Obligations.ReservedTokenRule := by
  unfold Obligations.ReservedTokenRule
  refine ⟨fun data hdata => ?decoded, fun s data hr => ?raised⟩
  case decoded => exact decode_encode (i := .reservedToken data) (decide_eq_true hdata)
  case raised => rw [exec_reservedToken_in_run hr, tokenOf_reserved_setWidth]

end Sys2Proof.Machine

/-! The memory frame of the instructions (O20). -/

namespace Sys2Proof.Machine

/-- No instruction writes the LUT. -/
theorem Effect.lut_eq {i : Instr} {s t : State} (h : Effect s i t) : t.lut = s.lut := by
  cases h <;> simp

/-- Only BYTE in RUN writes the frame buffer, at IN_COUNT (R131). -/
theorem Effect.frameBuf_read_eq {i : Instr} {s t : State} (h : Effect s i t) {a : Nat}
    (ha : ¬ ((∃ b, i = .byte b) ∧ s.engine = .run ∧ a = s.inCount.toNat)) : t.frameBuf.read a = s.frameBuf.read a := by
  cases h with
  | byte b hr => exact Memory.read_write_other s.frameBuf b fun heq => ha ⟨⟨b, rfl⟩, hr, heq⟩
  | _ => simp

/-- Only PROCESS_FRAME and RESET in PROC write the raster, the bytes of the frame's raster (R155, R168). -/
theorem Effect.raster_read_eq {i : Instr} {s t : State} (h : Effect s i t) {a : Nat}
    (ha : ¬ ((i = .processFrame ∨ i = .reset) ∧ s.engine = .proc ∧ a < s.rasterBytes)) :
    t.raster.read a = s.raster.read a := by
  cases h with
  | reset =>
    by_cases hp : s.engine = .proc
    · rw [softReset_raster_read hp, if_neg fun hlt => ha ⟨.inr rfl, hp, hlt⟩]
    · rw [softReset_outside_proc hp, clearRun_raster]
  | publish hp =>
    rw [recordUnwrittenLut_raster, publishFrame_raster, Memory.read_fill, if_neg fun hlt => ha ⟨.inl rfl, hp, hlt⟩]
  | lutRange hp w =>
    rw [raiseError_raster, recordUnwrittenLut_raster, scrambleRaster_raster, Memory.read_fill,
      if_neg fun hlt => ha ⟨.inl rfl, hp, hlt⟩]
  | _ => simp

/-- Settles O20: the frame lemmas above, for the effect of the instruction. -/
theorem instructionMemoryFrame : Obligations.InstructionMemoryFrame := by
  unfold Obligations.InstructionMemoryFrame
  intro i s t hexec a
  have h := effect_of_exec hexec
  exact ⟨congrArg (Memory.read · a) h.lut_eq, h.frameBuf_read_eq, h.raster_read_eq⟩

end Sys2Proof.Machine

/-! One frame: its bytes (O54), its samples, and its raster. -/

namespace Sys2Proof.Machine

/-- Writes of bytes at the addresses from 0 on store the bytes in order, and nothing beyond. -/
theorem Memory.read_writeCells_mapIdx (m : Memory) (bytes : List Byte) (x : Nat) :
    (m.writeCells (bytes.mapIdx Prod.mk)).read x = (bytes[x]?).or (m.read x) := by
  induction bytes using List.reverseRecOn with
  | nil => rfl
  | append_singleton bytes b ih =>
    have hlast : m.writeCells ((bytes ++ [b]).mapIdx Prod.mk) =
        (m.writeCells (bytes.mapIdx Prod.mk)).write bytes.length b := by
      simp [Memory.writeCells]
    rw [hlast, Memory.read_write, ih]
    rcases Nat.lt_trichotomy x bytes.length with h | rfl | h
    · rw [if_neg h.ne, List.getElem?_append_left h]
    · simp
    · rw [if_neg h.ne', List.getElem?_eq_none h.le, List.getElem?_eq_none (by rw [List.length_append]; exact h)]

/-- RUN with no byte of the next frame received, and a frame of one byte at least that IN_COUNT can count: what every frame
of a stream begins from (R131, R173). -/
structure State.AwaitsFrame (s : State) : Prop where
  running : s.engine = .run
  noneReceived : s.inCount = 0
  frameBytes_pos : 0 < s.frameBytes
  frameBytes_lt : s.frameBytes < 2 ^ 32

/-- The state that has received `bytes` of a frame: RUN, or PROC when they are the whole of it (R131, R132). -/
def State.received (s : State) (bytes : List Byte) : State :=
  { s with
    frameBuf := s.frameBuf.writeCells (bytes.mapIdx Prod.mk)
    inCount := BitVec.ofNat 32 bytes.length
    engine := if bytes.length = s.frameBytes then .proc else .run }

theorem received_engine_partial {s : State} {bytes : List Byte} (h : bytes.length < s.frameBytes) :
    (s.received bytes).engine = .run := if_neg h.ne

theorem received_engine_full {s : State} {bytes : List Byte} (h : bytes.length = s.frameBytes) :
    (s.received bytes).engine = .proc := if_pos h

theorem received_inCount_toNat {s : State} (hs : s.AwaitsFrame) {bytes : List Byte} (h : bytes.length ≤ s.frameBytes) :
    (s.received bytes).inCount.toNat = bytes.length :=
  Nat.mod_eq_of_lt (h.trans_lt hs.frameBytes_lt)

theorem received_frameBuf_read (s : State) (bytes : List Byte) (a : Nat) :
    (s.received bytes).frameBuf.read a = (bytes[a]?).or (s.frameBuf.read a) :=
  Memory.read_writeCells_mapIdx s.frameBuf bytes a

theorem received_nil {s : State} (hs : s.AwaitsFrame) : s.received [] = s := by
  have hengine : (s.received []).engine = s.engine :=
    (received_engine_partial (bytes := []) hs.frameBytes_pos).trans hs.running.symm
  calc s.received []
    _ = { s with engine := (s.received []).engine, inCount := 0 } := rfl
    _ = s := by rw [hengine, ← hs.noneReceived]

/-- One more byte of the frame (R131). -/
theorem exec_byte_received {s : State} (hs : s.AwaitsFrame) {bytes : List Byte} (h : bytes.length < s.frameBytes)
    (b : Byte) : exec (.byte b) (s.received bytes) = .next (s.received (bytes ++ [b])) := by
  have hlength : (bytes ++ [b]).length = bytes.length + 1 := List.length_append
  have hcount : (s.received bytes).inCount + 1 = (s.received (bytes ++ [b])).inCount := by
    simp [State.received, BitVec.ofNat_add]
  have hstored : (s.received bytes).frameBuf.write (s.received bytes).inCount.toNat b =
      (s.received (bytes ++ [b])).frameBuf := by
    rw [received_inCount_toNat hs h.le]
    simp [State.received, Memory.writeCells]
  rw [exec_byte_in_run (received_engine_partial h), hcount, hstored, received_inCount_toNat hs (hlength ▸ h)]
  rfl

/-- The bytes of a frame or of a part of it, one after another (R131, R139, R140). -/
theorem execAll_bytes {s : State} (hs : s.AwaitsFrame) {bytes : List Byte} (h : bytes.length ≤ s.frameBytes) :
    execAll (bytes.map .byte) s = .next (s.received bytes) := by
  induction bytes using List.reverseRecOn with
  | nil => exact congrArg _ (received_nil hs).symm
  | append_singleton bytes b ih =>
    have hlength : (bytes ++ [b]).length = bytes.length + 1 := List.length_append
    have hless : bytes.length < s.frameBytes := hlength.ge.trans h
    rw [List.map_append, execAll_append (ih hless.le)]
    simp only [List.map_cons, List.map_nil, execAll, exec_byte_received hs hless]

/-- Settles O54: the bytes received, their count, and what the frame buffer then holds. -/
theorem frameIngest : Obligations.FrameIngest := by
  unfold Obligations.FrameIngest
  intro s bytes hrun hcount hlen hpos hlt
  have hs : s.AwaitsFrame := ⟨hrun, hcount, hpos, hlt⟩
  refine ⟨s.received bytes, execAll_bytes hs hlen.le, ?frame, ?count, fun k hk => ?stored, fun k hk => ?beyond⟩
  case frame => rw [← received_engine_full hlen]; rfl
  case count => rw [received_inCount_toNat hs hlen.le, hlen]
  case stored => rw [received_frameBuf_read, List.getElem?_eq_getElem (hlen ▸ hk), Option.some_or]
  case beyond => rw [received_frameBuf_read, List.getElem?_eq_none (hlen ▸ hk), Option.none_or]

/-! The samples of a frame received, and the indices of its pixels. -/

/-- A sample by its two bytes, low byte first (R133). -/
theorem sample_toNat (s : State) (k : Nat) :
    (s.sample k).toNat = (s.frameByte (2 * k)).toNat + 256 * (s.frameByte (2 * k + 1)).toNat := by
  rw [State.sample, BitVec.toNat_append, ← Nat.shiftLeft_add_eq_or_of_lt (s.frameByte (2 * k)).isLt, Nat.shiftLeft_eq]
  omega

theorem received_frameByte {s : State} {bytes : List Byte} {a : Nat} (h : a < bytes.length) :
    (s.received bytes).frameByte a = bytes[a] := by
  rw [State.frameByte, received_frameBuf_read, List.getElem?_eq_getElem h, Option.some_or, Option.getD_some]

/-- A bound of a frame's samples bounds its edge-clamped reads (R134). -/
theorem sampleAt_lt_of_samples {s : State} {n : Nat} (hw : 0 < s.width) (hh : 0 < s.height)
    (h : ∀ k, k < s.width * s.height → (s.sample k).toNat < n) (x y : Nat) : s.sampleAt x y < n := by
  have hx : min x (s.width - 1) + 1 ≤ s.width := by omega
  have hy : min y (s.height - 1) + 1 ≤ s.height := by omega
  refine h _ ?_
  calc min y (s.height - 1) * s.width + min x (s.width - 1)
    _ < min y (s.height - 1) * s.width + s.width := by omega
    _ = s.width * (min y (s.height - 1) + 1) := by ring
    _ ≤ s.width * s.height := Nat.mul_le_mul_left _ hy

/-- A bound of a frame's samples bounds the index of every pixel (R147 to R149). -/
theorem pixelIndex_lt_of_samples {s : State} {n ox oy : Nat} (hx : ox < s.outW) (hy : oy < s.outH)
    (h : ∀ k, k < s.width * s.height → (s.sample k).toNat < n) : s.pixelIndex ox oy < n := by
  have hw : 0 < s.width * s.m := Nat.zero_lt_of_lt hx
  have hh : 0 < s.height * s.m := Nat.zero_lt_of_lt hy
  have hm : 0 < s.m := Nat.pos_of_mul_pos_left hw
  have hsample := sampleAt_lt_of_samples (Nat.pos_of_mul_pos_right hw) (Nat.pos_of_mul_pos_right hh) h
  have hn : 0 < n := Nat.zero_lt_of_lt (hsample 0 0)
  have hbil : s.bil (ox / s.m) (oy / s.m) (ox % s.m) (oy % s.m) ≤ s.weightSum * (n - 1) :=
    bil_le (Nat.mod_lt _ hm) (Nat.mod_lt _ hm) fun _ _ _ _ => Nat.le_sub_one_of_lt (hsample _ _)
  calc s.pixelIndex ox oy
    _ ≤ s.roundedIndex (s.weightSum * (n - 1)) := roundedIndex_mono s hbil
    _ = n - 1 := roundedIndex_mul s (n - 1)
    _ < n := Nat.sub_one_lt_of_lt hn

/-- A frame as the stream of R173 holds it: of full length, with every sample in the LUT's domain. -/
structure State.InDomain (s : State) (f : List Byte) : Prop where
  length_eq : f.length = s.frameBytes
  sample_lt : ∀ k lo hi, f[2 * k]? = some lo → f[2 * k + 1]? = some hi → lo.toNat + 256 * hi.toNat < s.tableSize

/-- A frame in the LUT's domain has no offending index (R150, R155). -/
theorem received_pixelIndex_lt {s : State} {f : List Byte} (h : s.InDomain f) {ox oy : Nat} (hx : ox < s.outW)
    (hy : oy < s.outH) : (s.received f).pixelIndex ox oy < s.tableSize := by
  refine pixelIndex_lt_of_samples (s := s.received f) hx hy fun k hk => ?sample
  case sample =>
    have hk : k < s.width * s.height := hk
    have hbytes : 2 * k + 1 < f.length := by
      rw [h.length_eq, State.frameBytes, Nat.mul_assoc]
      omega
    rw [sample_toNat, received_frameByte hbytes, received_frameByte (Nat.lt_of_succ_lt hbytes)]
    exact h.sample_lt k _ _ (List.getElem?_eq_getElem _) (List.getElem?_eq_getElem _)

end Sys2Proof.Machine

/-! Frames one after another (O55). -/

namespace Sys2Proof.Machine

/-- RELEASE hands the raster back (R167). -/
theorem exec_release_in_hold {s : State} (h : s.engine = .hold) :
    exec .release s = .next { s with inCount := 0, engine := .run } :=
  if_neg (not_not.2 h)

/-- HOLD with the frame `f` received and processed (R155). -/
def State.shown (s : State) (f : List Byte) : State := recordUnwrittenLut (publishFrame (s.received f))

/-- RUN again, with the frame `f` released (R167). -/
def State.passed (s : State) (f : List Byte) : State := { s.shown f with inCount := 0, engine := .run }

/-- The bytes of a frame and PROCESS_FRAME lead from RUN to HOLD (R131, R155). -/
theorem execAll_frame {s : State} (hs : s.AwaitsFrame) {f : List Byte} (hf : s.InDomain f) :
    execAll (f.map .byte ++ [.processFrame]) s = .next (s.shown f) := by
  have hprocess : exec .processFrame (s.received f) = .next (s.shown f) :=
    exec_processFrame_publishes (received_engine_full hf.length_eq) fun _ _ hx hy => received_pixelIndex_lt hf hx hy
  rw [execAll_append (execAll_bytes hs hf.length_eq.le)]
  simp only [execAll, hprocess]

/-- RELEASE leads back to RUN (R167). -/
theorem execAll_frame_release {s : State} (hs : s.AwaitsFrame) {f : List Byte} (hf : s.InDomain f) :
    execAll (f.map .byte ++ [.processFrame, .release]) s = .next (s.passed f) := by
  have hrelease : exec .release (s.shown f) = .next (s.passed f) := exec_release_in_hold rfl
  rw [List.append_cons, execAll_append (execAll_frame hs hf)]
  simp only [execAll, hrelease]

/-- `u` awaits the next frame as `s` did, `n` frames of the same size and the same table later (R173). -/
structure State.AfterFrames (s : State) (n : Nat) (u : State) : Prop where
  awaits : u.AwaitsFrame
  frameSeq_eq : u.frameSeq = s.frameSeq + BitVec.ofNat 32 n
  frameBytes_eq : u.frameBytes = s.frameBytes
  tableSize_eq : u.tableSize = s.tableSize

theorem State.AfterFrames.zero {s : State} (hs : s.AwaitsFrame) : s.AfterFrames 0 s :=
  ⟨hs, (BitVec.add_zero s.frameSeq).symm, rfl, rfl⟩

theorem State.AfterFrames.inDomain {s u : State} {n : Nat} (h : s.AfterFrames n u) {f : List Byte} (hf : s.InDomain f) :
    u.InDomain f :=
  ⟨hf.length_eq.trans h.frameBytes_eq.symm, h.tableSize_eq ▸ hf.sample_lt⟩

/-- PROCESS_FRAME counts the frame (R47, R155). -/
theorem State.AfterFrames.shown_frameSeq {s u : State} {n : Nat} (h : s.AfterFrames n u) (f : List Byte) :
    (u.shown f).frameSeq = s.frameSeq + BitVec.ofNat 32 (n + 1) :=
  calc (u.shown f).frameSeq
    _ = u.frameSeq + 1#32 := rfl
    _ = s.frameSeq + BitVec.ofNat 32 (n + 1) := by rw [h.frameSeq_eq, BitVec.ofNat_add, BitVec.add_assoc]

theorem State.AfterFrames.passed {s u : State} {n : Nat} (h : s.AfterFrames n u) (f : List Byte) :
    s.AfterFrames (n + 1) (u.passed f) :=
  ⟨⟨rfl, rfl, h.awaits.frameBytes_pos, h.awaits.frameBytes_lt⟩, h.shown_frameSeq f, h.frameBytes_eq, h.tableSize_eq⟩

/-- Frames one after another, each processed and released (R173). -/
theorem execAll_frames {s : State} (hs : s.AwaitsFrame) {frames : List (List Byte)} (hf : ∀ f ∈ frames, s.InDomain f) :
    ∃ u, execAll (frames.flatMap fun f => f.map .byte ++ [.processFrame, .release]) s = .next u ∧
      s.AfterFrames frames.length u := by
  induction frames using List.reverseRecOn with
  | nil => exact ⟨s, rfl, .zero hs⟩
  | append_singleton frames f ih =>
    obtain ⟨hframes, hlast⟩ := List.forall_mem_append.1 hf
    obtain ⟨u, hexec, hu⟩ := ih hframes
    have hpass := execAll_frame_release hu.awaits (hu.inDomain (List.forall_mem_singleton.1 hlast))
    refine ⟨u.passed f, ?_, List.length_append ▸ hu.passed f⟩
    rw [List.flatMap_append, execAll_append hexec, List.flatMap_singleton, hpass]

/-- Settles O55: after the frames before it, frame `k` is shown in HOLD, and after all of them the chunk is received and END
leads to DONE. -/
theorem streamOfFrames : Obligations.StreamOfFrames := by
  unfold Obligations.StreamOfFrames
  intro s frames chunk hparams haccepts hrun hcount hlen hdomain hchunk
  obtain ⟨hpos, _, hlt, _⟩ := accepted_bounds hparams haccepts
  have hs : s.AwaitsFrame := ⟨hrun, hcount, hpos, by omega⟩
  have hframes : ∀ f ∈ frames, s.InDomain f := fun f hf => ⟨hlen f hf, hdomain f hf⟩
  refine ⟨fun k f hk => ?hold, ?done⟩
  case hold =>
    obtain ⟨hklt, _⟩ := List.getElem?_eq_some_iff.1 hk
    obtain ⟨u, hexec, hu⟩ := execAll_frames hs fun f hf => hframes f (List.mem_of_mem_take hf)
    rw [List.length_take_of_le hklt.le] at hu
    refine ⟨u.shown f, ?_, rfl, hu.shown_frameSeq f⟩
    have hf : u.InDomain f := hu.inDomain (hframes f (List.mem_of_getElem? hk))
    rw [List.append_assoc, execAll_append hexec, execAll_frame hu.awaits hf]
  case done =>
    obtain ⟨u, hexec, hu⟩ := execAll_frames hs hframes
    have hpart : chunk.length < u.frameBytes := hu.frameBytes_eq ▸ hchunk
    refine ⟨{ u.received chunk with engine := .done }, ?_, rfl, hu.frameSeq_eq,
      received_inCount_toNat hu.awaits hpart.le⟩
    rw [List.append_assoc, execAll_append hexec, execAll_append (execAll_bytes hu.awaits hpart.le)]
    simp only [execAll, exec_endOfStream_in_run (received_engine_partial hpart)]

end Sys2Proof.Machine

/-! The bilinear blend and its rounding (O31 to O38). -/

namespace Sys2Proof.Machine

/-! Samples: an edge-clamped read depends on the clamped coordinates only (R134). -/

theorem sampleAt_congr {s : State} {x x' y y' : Nat} (hx : min x (s.width - 1) = min x' (s.width - 1))
    (hy : min y (s.height - 1) = min y' (s.height - 1)) : s.sampleAt x y = s.sampleAt x' y' := by
  rw [State.sampleAt, State.sampleAt, hx, hy]

/-- Inside the frame nothing is clamped. -/
theorem sampleAt_of_lt {s : State} {x y : Nat} (hx : x < s.width) (hy : y < s.height) :
    s.sampleAt x y = (s.sample (y * s.width + x)).toNat := by
  rw [State.sampleAt, min_eq_left (Nat.le_sub_one_of_lt hx), min_eq_left (Nat.le_sub_one_of_lt hy)]

theorem sampleAt_one_past_column (s : State) (y : Nat) :
    s.sampleAt (s.width - 1 + 1) y = s.sampleAt (s.width - 1) y :=
  sampleAt_congr (by omega) rfl

theorem sampleAt_one_past_row (s : State) (x : Nat) :
    s.sampleAt x (s.height - 1 + 1) = s.sampleAt x (s.height - 1) :=
  sampleAt_congr rfl (by omega)

/-- A clamped read of a frame that is not empty reads one of its samples. -/
theorem exists_sample_eq_sampleAt {s : State} (hw : 0 < s.width) (hh : 0 < s.height) (x y : Nat) :
    ∃ k, k < s.width * s.height ∧ s.sampleAt x y = (s.sample k).toNat := by
  refine ⟨min y (s.height - 1) * s.width + min x (s.width - 1), ?_, rfl⟩
  have hx : min x (s.width - 1) < s.width := by omega
  have hy : min y (s.height - 1) + 1 ≤ s.height := by omega
  calc min y (s.height - 1) * s.width + min x (s.width - 1)
    _ < min y (s.height - 1) * s.width + s.width := Nat.add_lt_add_left hx _
    _ = s.width * (min y (s.height - 1) + 1) := by ring
    _ ≤ s.width * s.height := Nat.mul_le_mul_left _ hy

/-- Settles O38: both coordinates clamp to the last one. -/
theorem edgeClampEquivalence : Obligations.EdgeClampEquivalence := by
  unfold Obligations.EdgeClampEquivalence
  intro s x y
  exact ⟨sampleAt_congr (by omega) rfl, sampleAt_congr rfl (by omega)⟩

/-! The divisor `m'` and the weights' sum `D` (R146). -/

theorem subDivisor_of_le_two {s : State} (h : s.m ≤ 2) : s.subDivisor = 1 := by
  unfold State.subDivisor
  omega

theorem subDivisor_of_two_le {s : State} (h : 2 ≤ s.m) : s.subDivisor = s.m - 1 := by
  unfold State.subDivisor
  omega

theorem weightSum_of_le_two {s : State} (h : s.m ≤ 2) : s.weightSum = 1 := by
  rw [State.weightSum, subDivisor_of_le_two h]

/-! `Bil` as a blend of two rows, each a blend of two samples (R147). -/

/-- Row `y` blended between columns `i` and `i + 1`, in units of `1/m'`. -/
def State.rowBlend (s : State) (i ri y : Nat) : Nat :=
  (s.subDivisor - ri) * s.sampleAt i y + ri * s.sampleAt (i + 1) y

theorem bil_eq_rowBlend (s : State) (i j ri rj : Nat) :
    s.bil i j ri rj = (s.subDivisor - rj) * s.rowBlend i ri j + rj * s.rowBlend i ri (j + 1) := by
  unfold State.bil State.rowBlend
  ring

theorem rowBlend_zero (s : State) (i y : Nat) : s.rowBlend i 0 y = s.subDivisor * s.sampleAt i y := by
  rw [State.rowBlend, Nat.sub_zero, Nat.zero_mul, Nat.add_zero]

theorem rowBlend_subDivisor (s : State) (i y : Nat) :
    s.rowBlend i s.subDivisor y = s.subDivisor * s.sampleAt (i + 1) y := by
  rw [State.rowBlend, Nat.sub_self, Nat.zero_mul, Nat.zero_add]

/-- Between two equal samples nothing is blended. -/
theorem rowBlend_of_sampleAt_eq {s : State} {i ri y : Nat} (hri : ri ≤ s.subDivisor)
    (h : s.sampleAt (i + 1) y = s.sampleAt i y) : s.rowBlend i ri y = s.subDivisor * s.sampleAt i y := by
  rw [State.rowBlend, h, ← Nat.add_mul, Nat.sub_add_cancel hri]

theorem bil_row_zero (s : State) (i j ri : Nat) : s.bil i j ri 0 = s.subDivisor * s.rowBlend i ri j := by
  rw [bil_eq_rowBlend, Nat.sub_zero, Nat.zero_mul, Nat.add_zero]

theorem bil_row_subDivisor (s : State) (i j ri : Nat) :
    s.bil i j ri s.subDivisor = s.subDivisor * s.rowBlend i ri (j + 1) := by
  rw [bil_eq_rowBlend, Nat.sub_self, Nat.zero_mul, Nat.zero_add]

/-- Between two equal rows nothing is blended. -/
theorem bil_of_rowBlend_eq {s : State} {i j ri rj : Nat} (hrj : rj ≤ s.subDivisor)
    (h : s.rowBlend i ri (j + 1) = s.rowBlend i ri j) : s.bil i j ri rj = s.subDivisor * s.rowBlend i ri j := by
  rw [bil_eq_rowBlend, h, ← Nat.add_mul, Nat.sub_add_cancel hrj]

/-- `Bil` sees a column of a cell through the blends of its rows only. -/
theorem bil_congr_rowBlend {s : State} {i i' ri ri' : Nat} (h : ∀ y, s.rowBlend i ri y = s.rowBlend i' ri' y)
    (j rj : Nat) : s.bil i j ri rj = s.bil i' j ri' rj := by
  rw [bil_eq_rowBlend, bil_eq_rowBlend, h, h]

/-- At the corners of a cell `Bil` is one sample, times `D`. -/
theorem bil_corner (s : State) (i j : Nat) (right lower : Bool) :
    s.bil i j (right.toNat * s.subDivisor) (lower.toNat * s.subDivisor) =
      s.weightSum * s.sampleAt (i + right.toNat) (j + lower.toNat) := by
  have hrow : ∀ y, s.rowBlend i (right.toNat * s.subDivisor) y = s.subDivisor * s.sampleAt (i + right.toNat) y := by
    intro y
    cases right with
    | false => simp [rowBlend_zero]
    | true => simp [rowBlend_subDivisor]
  cases lower with
  | false => simp [bil_row_zero, hrow, State.weightSum, Nat.mul_assoc]
  | true => simp [bil_row_subDivisor, hrow, State.weightSum, Nat.mul_assoc]

/-! The index lies between bounds of its samples (R147 to R149). -/

theorem pixelIndex_le {s : State} {ox oy hi : Nat} (hm : 0 < s.m)
    (h : ∀ dx dy, dx ≤ 1 → dy ≤ 1 → s.sampleAt (ox / s.m + dx) (oy / s.m + dy) ≤ hi) : s.pixelIndex ox oy ≤ hi :=
  calc s.pixelIndex ox oy
    _ ≤ s.roundedIndex (s.weightSum * hi) := roundedIndex_mono s (bil_le (Nat.mod_lt _ hm) (Nat.mod_lt _ hm) h)
    _ = hi := roundedIndex_mul s hi

theorem le_pixelIndex {s : State} {ox oy lo : Nat} (hm : 0 < s.m)
    (h : ∀ dx dy, dx ≤ 1 → dy ≤ 1 → lo ≤ s.sampleAt (ox / s.m + dx) (oy / s.m + dy)) : lo ≤ s.pixelIndex ox oy :=
  calc lo
    _ = s.roundedIndex (s.weightSum * lo) := (roundedIndex_mul s lo).symm
    _ ≤ s.pixelIndex ox oy := roundedIndex_mono s (le_bil (Nat.mod_lt _ hm) (Nat.mod_lt _ hm) h)

/-- Settles O33: rounding is monotone and keeps multiples of `D`. -/
theorem indexBetweenSamples : Obligations.IndexBetweenSamples := by
  unfold Obligations.IndexBetweenSamples
  intro s ox oy lo hi hm hlo hhi
  exact ⟨le_pixelIndex hm hlo, pixelIndex_le hm hhi⟩

/-- Every sample is a 16-bit number. -/
theorem sampleAt_le (s : State) (x y : Nat) : s.sampleAt x y ≤ 65535 := Nat.le_of_lt_succ (sampleAt_lt s x y)

theorem pixelIndex_le_65535 {s : State} (hm : 0 < s.m) (ox oy : Nat) : s.pixelIndex ox oy ≤ 65535 :=
  pixelIndex_le hm fun _ _ _ _ => sampleAt_le s _ _

/-! The index as a rounded quotient (R149). -/

/-- `floor(b/D + 1/2)` as a quotient of naturals. -/
theorem roundHalfUp_div {d : Nat} (hd : 0 < d) (b : Nat) :
    roundHalfUp ((b : Rat) / (d : Rat)) = (((2 * b + d) / (2 * d) : Nat) : Int) := by
  have hd0 : (d : Rat) ≠ 0 := Nat.cast_ne_zero.2 hd.ne'
  have hquot : (b : Rat) / d + 1 / 2 = ((2 * b + d : Nat) : Rat) / ((2 * d : Nat) : Rat) := by
    push_cast
    field_simp
  rw [roundHalfUp, hquot]
  exact Rat.floor_natCast_div_natCast _ _

/-- A tie needs an even divisor. -/
theorem even_of_tie {b d : Nat} (h : (2 * b + d) % (2 * d) = 0) : d % 2 = 0 := by
  have htwo : 2 ∣ 2 * b + d := (Nat.dvd_mul_right 2 d).trans (Nat.dvd_of_mod_eq_zero h)
  omega

/-- Settles O31: the model's index is the floor form by definition. -/
theorem indexRoundsHalfUp : Obligations.IndexRoundsHalfUp := by
  unfold Obligations.IndexRoundsHalfUp
  rintro s ox oy b hm rfl
  exact ⟨(roundHalfUp_div (weightSum_pos s) _).symm, rfl, pixelIndex_le_65535 hm ox oy, even_of_tie⟩

/-! `Bil/D` as the source's weighted mean (R148). -/

theorem bil_div_weightSum {s : State} {i j ri rj : Nat} (hri : ri ≤ s.subDivisor) (hrj : rj ≤ s.subDivisor) :
    (s.bil i j ri rj : Rat) / (s.weightSum : Rat) =
      (1 - (ri : Rat) / s.subDivisor) * (1 - (rj : Rat) / s.subDivisor) * s.sampleAt i j
        + (ri : Rat) / s.subDivisor * (1 - (rj : Rat) / s.subDivisor) * s.sampleAt (i + 1) j
        + (1 - (ri : Rat) / s.subDivisor) * ((rj : Rat) / s.subDivisor) * s.sampleAt i (j + 1)
        + (ri : Rat) / s.subDivisor * ((rj : Rat) / s.subDivisor) * s.sampleAt (i + 1) (j + 1) := by
  have hd : (s.subDivisor : Rat) ≠ 0 := Nat.cast_ne_zero.2 (subDivisor_pos s).ne'
  rw [State.bil, State.weightSum]
  push_cast [Nat.cast_sub hri, Nat.cast_sub hrj]
  field_simp

theorem bil_div_weightSum_le {s : State} {i j ri rj : Nat} (hri : ri < s.m) (hrj : rj < s.m) :
    (s.bil i j ri rj : Rat) / (s.weightSum : Rat) ≤ 65535 := by
  have hbil : s.bil i j ri rj ≤ s.weightSum * 65535 := bil_le hri hrj fun _ _ _ _ => sampleAt_le s _ _
  rw [div_le_iff₀' (Nat.cast_pos.2 (weightSum_pos s))]
  exact_mod_cast hbil

/-- Settles O32: the weights divided by `D = m'²`, and the bounds of a weighted mean of 16-bit samples. -/
theorem bilIsWeightedMean : Obligations.BilIsWeightedMean := by
  unfold Obligations.BilIsWeightedMean
  intro s i j ri rj hri hrj
  exact ⟨bil_div_weightSum (offset_le_subDivisor hri) (offset_le_subDivisor hrj), by positivity,
    bil_div_weightSum_le hri hrj⟩

/-! Frames and magnifications at which nothing is blended (R157, R158, R160). -/

/-- A pixel in range is the LUT entry of its index (R150, R151). -/
theorem pix_of_pixelIndex {s : State} {ox oy idx : Nat} (hidx : s.pixelIndex ox oy = idx) (h : idx < s.tableSize)
    (draw : Nat) : s.pix draw ox oy = .pixel (s.lutEntry draw idx) := by
  subst hidx
  exact if_neg (Nat.not_le.2 h)

/-- A pixel at a corner of its cell takes the sample there. -/
theorem pixelIndex_corner {s : State} {i j : Nat} {right lower : Bool} (hright : right.toNat * s.subDivisor < s.m)
    (hlower : lower.toNat * s.subDivisor < s.m) :
    s.pixelIndex (i * s.m + right.toNat * s.subDivisor) (j * s.m + lower.toNat * s.subDivisor) =
      s.sampleAt (i + right.toNat) (j + lower.toNat) := by
  rw [pixelIndex_cell hright hlower, bil_corner, roundedIndex_mul]

/-- At `m = 1` every pixel is the upper left corner of its cell. -/
theorem pixelIndex_mag_one {s : State} (hm : s.m = 1) (ox oy : Nat) : s.pixelIndex ox oy = s.sampleAt ox oy := by
  have hcorner := pixelIndex_corner (s := s) (i := ox) (j := oy) (right := false) (lower := false)
  simpa [hm] using hcorner

/-- At `m = 2` every pixel is a corner of its cell. -/
theorem pixelIndex_mag_two {s : State} (hm : s.m = 2) (i j : Nat) (odd odd' : Bool) :
    s.pixelIndex (2 * i + odd.toNat) (2 * j + odd'.toNat) = s.sampleAt (i + odd.toNat) (j + odd'.toNat) := by
  have hlt : ∀ b : Bool, b.toNat * s.subDivisor < s.m := fun b => by
    rw [subDivisor_of_le_two hm.le, Nat.mul_one, hm]
    exact b.toNat_lt
  have hcorner := pixelIndex_corner (i := i) (j := j) (hlt odd) (hlt odd')
  rwa [subDivisor_of_le_two hm.le, Nat.mul_one, Nat.mul_one, hm, Nat.mul_comm i, Nat.mul_comm j] at hcorner

/-- Settles O34: the pixel is the upper left corner of its cell, inside the frame. -/
theorem magOneIsIdentity : Obligations.MagOneIsIdentity := by
  unfold Obligations.MagOneIsIdentity
  intro s draw ox oy hm hx hy
  rw [State.outW, hm, Nat.mul_one] at hx
  rw [State.outH, hm, Nat.mul_one] at hy
  have hle : s.m ≤ 2 := by omega
  have hbil : s.bil ox oy 0 0 = s.sampleAt ox oy := by
    rw [bil_row_zero, rowBlend_zero, subDivisor_of_le_two hle, Nat.one_mul, Nat.one_mul]
  have hindex : s.pixelIndex ox oy = (s.sample (oy * s.width + ox)).toNat :=
    (pixelIndex_mag_one hm ox oy).trans (sampleAt_of_lt hx hy)
  exact ⟨subDivisor_of_le_two hle, weightSum_of_le_two hle, hm ▸ Nat.mod_one ox, hm ▸ Nat.mod_one oy, hbil, hindex,
    fun h => pix_of_pixelIndex hindex h draw⟩

/-- A step to the next column or row, clamped at the last one. -/
theorem clamp_step {n i : Nat} (h : i < n) (b : Bool) :
    min (i + b.toNat) (n - 1) = if b then min (i + 1) (n - 1) else i := by
  cases b with
  | false => exact min_eq_left (Nat.le_sub_one_of_lt h)
  | true => rfl

/-- Settles O35: the pixel is a corner of its cell, clamped to the frame. -/
theorem magTwoDoesNotBlend : Obligations.MagTwoDoesNotBlend := by
  unfold Obligations.MagTwoDoesNotBlend
  intro s i j odd odd' hm hi hj
  refine ⟨subDivisor_of_le_two hm.le, ?_⟩
  rw [pixelIndex_mag_two hm, State.sampleAt, clamp_step hi, clamp_step hj]

/-- Settles O37: every clamped read is `v`, so both bounds of the blend and of the index are. -/
theorem solidFrameIsSolid : Obligations.SolidFrameIsSolid := by
  unfold Obligations.SolidFrameIsSolid
  intro s v ox oy h hx hy
  have hw : 0 < s.width * s.m := Nat.zero_lt_of_lt hx
  have hh : 0 < s.height * s.m := Nat.zero_lt_of_lt hy
  have hm : 0 < s.m := Nat.pos_of_mul_pos_left hw
  have hsample : ∀ x y, s.sampleAt x y = v := fun x y => by
    obtain ⟨k, hk, hread⟩ := exists_sample_eq_sampleAt (Nat.pos_of_mul_pos_right hw) (Nat.pos_of_mul_pos_right hh) x y
    exact hread.trans (h k hk)
  have hbil : s.bil (ox / s.m) (oy / s.m) (ox % s.m) (oy % s.m) = v * s.weightSum := by
    rw [Nat.mul_comm]
    exact Nat.le_antisymm (bil_le (Nat.mod_lt _ hm) (Nat.mod_lt _ hm) fun _ _ _ _ => (hsample _ _).le)
      (le_bil (Nat.mod_lt _ hm) (Nat.mod_lt _ hm) fun _ _ _ _ => (hsample _ _).ge)
  have hindex : s.pixelIndex ox oy = v := by
    rw [State.pixelIndex, hbil, Nat.mul_comm, roundedIndex_mul]
  exact ⟨hbil, hindex, fun hv draw => pix_of_pixelIndex hindex hv draw⟩

/-! Duplicated columns and rows (R159). -/

/-- The index at a column of a cell, in any row. -/
theorem pixelIndex_column {s : State} {i ri : Nat} (hri : ri < s.m) (oy : Nat) :
    s.pixelIndex (i * s.m + ri) oy = s.roundedIndex (s.bil i (oy / s.m) ri (oy % s.m)) := by
  obtain ⟨hcell, hoffset⟩ := cell_offset (a := i) hri
  rw [State.pixelIndex, hcell, hoffset]

/-- The index at a row of a cell, in any column. -/
theorem pixelIndex_row {s : State} {j rj : Nat} (hrj : rj < s.m) (ox : Nat) :
    s.pixelIndex ox (j * s.m + rj) = s.roundedIndex (s.bil (ox / s.m) j (ox % s.m) rj) := by
  obtain ⟨hcell, hoffset⟩ := cell_offset (a := j) hrj
  rw [State.pixelIndex, hcell, hoffset]

/-- Two columns whose row blends agree have equal indices. -/
theorem pixelIndex_column_congr {s : State} {i i' ri ri' : Nat} (hri : ri < s.m) (hri' : ri' < s.m)
    (h : ∀ y, s.rowBlend i ri y = s.rowBlend i' ri' y) (oy : Nat) :
    s.pixelIndex (i * s.m + ri) oy = s.pixelIndex (i' * s.m + ri') oy := by
  rw [pixelIndex_column hri, pixelIndex_column hri', bil_congr_rowBlend h]

/-- Two rows of equal `Bil` have equal indices. -/
theorem pixelIndex_row_congr {s : State} {j j' rj rj' : Nat} (hrj : rj < s.m) (hrj' : rj' < s.m)
    (h : ∀ i ri, s.bil i j ri rj = s.bil i j' ri rj') (ox : Nat) :
    s.pixelIndex ox (j * s.m + rj) = s.pixelIndex ox (j' * s.m + rj') := by
  rw [pixelIndex_row hrj, pixelIndex_row hrj', h]

/-- In the last column of the source every offset blends a sample with itself. -/
theorem rowBlend_last_column {s : State} {ri : Nat} (hri : ri ≤ s.subDivisor) (y : Nat) :
    s.rowBlend (s.width - 1) ri y = s.rowBlend (s.width - 1) 0 y := by
  rw [rowBlend_of_sampleAt_eq hri (sampleAt_one_past_column s y), rowBlend_zero]

/-- In the last row of the source every offset blends a row with itself. -/
theorem bil_last_row {s : State} {rj : Nat} (hrj : rj ≤ s.subDivisor) (i ri : Nat) :
    s.bil i (s.height - 1) ri rj = s.bil i (s.height - 1) ri 0 := by
  have hrow : s.rowBlend i ri (s.height - 1 + 1) = s.rowBlend i ri (s.height - 1) := by
    rw [State.rowBlend, sampleAt_one_past_row, sampleAt_one_past_row, State.rowBlend]
  rw [bil_of_rowBlend_eq hrj hrow, bil_row_zero]

/-- Settles O36: the offset `m' = m - 1` takes the next source column or row whole, as its own offset 0 does; beyond the last
one the clamped reads are equal. -/
theorem duplicatedColumnsAndRows : Obligations.DuplicatedColumnsAndRows := by
  unfold Obligations.DuplicatedColumnsAndRows
  intro s hm
  have hzero : 0 < s.m := by omega
  have hlast : s.subDivisor < s.m := by
    rw [subDivisor_of_two_le hm]
    omega
  rw [← subDivisor_of_two_le hm]
  refine ⟨fun i oy _ => ?nextColumn, fun j ox _ => ?nextRow, fun ri oy hri => ?lastColumn, fun rj ox hrj => ?lastRow⟩
  case nextColumn =>
    exact pixelIndex_column_congr (i' := i + 1) hlast hzero
      (fun y => (rowBlend_subDivisor s i y).trans (rowBlend_zero s (i + 1) y).symm) oy
  case nextRow =>
    exact pixelIndex_row_congr (j' := j + 1) hlast hzero
      (fun i ri => (bil_row_subDivisor s i j ri).trans (bil_row_zero s i (j + 1) ri).symm) ox
  case lastColumn =>
    exact pixelIndex_column_congr hri hzero (rowBlend_last_column (offset_le_subDivisor hri)) oy
  case lastRow =>
    exact pixelIndex_row_congr hrj hzero (bil_last_row (offset_le_subDivisor hrj)) ox

end Sys2Proof.Machine

/-! PROCESS_FRAME with an offending index (O18). -/

namespace Sys2Proof.Machine

/-- What PROCESS_FRAME leaves of the memories and the model's own records when an index offends (R155). -/
def State.spoiled (s : State) : State := recordUnwrittenLut (scrambleRaster s)

theorem spoiled_raster_read (s : State) (a : Nat) :
    s.spoiled.raster.read a = if a < s.rasterBytes then some (Config.freeByte (s.draws + a)) else s.raster.read a := by
  rw [State.spoiled, recordUnwrittenLut_raster, scrambleRaster_raster, Memory.read_fill]

/-- PROCESS_FRAME with an offending index raises LUT_RANGE with one of them (R152, R155). -/
theorem exec_processFrame_lutRange {s : State} (hp : s.engine = .proc) (hb : s.badIndices ≠ []) :
    exec .processFrame s = .next { s.spoiled with
      errCode := .lutRange, errInfo := BitVec.ofNat 32 (pickBad s.draws s.badIndices), engine := .error } := by
  have hnot : s.spoiled.engine ≠ .error := by
    rw [State.spoiled, recordUnwrittenLut_engine, scrambleRaster_engine, hp]
    decide
  simp only [exec, execProcessFrame, hp, ne_eq, not_true_eq_false, if_false, hb]
  exact congrArg _ (raiseError_outside_error hnot _ _)

/-- Settles O18: the index picked is a pixel's, and a 16-bit number, so ERRINFO holds it whole. -/
theorem processFrameLutRange : Obligations.ProcessFrameLutRange := by
  unfold Obligations.ProcessFrameLutRange
  intro s ox oy hp hx hy hbad
  have hm : 0 < s.m := Nat.pos_of_mul_pos_left (Nat.zero_lt_of_lt hx)
  have hne : s.badIndices ≠ [] := fun h => Nat.not_lt.2 hbad ((badIndices_eq_nil_iff s).1 h ox oy hx hy)
  obtain ⟨ex, ey, hex, hey, hpick, hrange⟩ := mem_badIndices.1 (pickBad_mem hne s.draws)
  rw [hpick] at hrange
  have hinfo : (BitVec.ofNat 32 (pickBad s.draws s.badIndices)).toNat = s.pixelIndex ex ey := by
    rw [hpick, BitVec.toNat_ofNat]
    exact Nat.mod_eq_of_lt ((pixelIndex_le_65535 hm ex ey).trans_lt (by decide))
  refine ⟨_, ex, ey, exec_processFrame_lutRange hp hne, hex, hey, hrange, hinfo, rfl, ?written, ?beyond⟩
  case written =>
    intro a ha
    rw [spoiled_raster_read, if_pos ha]
    rfl
  case beyond =>
    intro a ha
    rw [spoiled_raster_read, if_neg (Nat.not_lt.2 ha)]

end Sys2Proof.Machine

/-! The commands NOP, START and RELEASE (O9, O10, O11). -/

namespace Sys2Proof.Machine

/-- A bit of START's mask is set exactly if its check fails, and the mask fills the low eight bits of ERRINFO (R166). -/
theorem getLsbD_setWidth_configMask_iff (s : State) (k : Nat) :
    (s.configMask.setWidth 32).getLsbD k = true ↔
      (k = 0 ∧ s.width = 0) ∨ (k = 1 ∧ s.height = 0) ∨ (k = 2 ∧ s.m = 0) ∨ (k = 3 ∧ s.m > s.params.maxMag) ∨
      (k = 4 ∧ s.width * s.height > s.params.maxFrameSamples) ∨
      (k = 5 ∧ s.width * s.height * s.m * s.m > s.params.maxRasterPixels) ∨
      (k = 6 ∧ s.tableSize = 0) ∨ (k = 7 ∧ s.tableSize > s.params.lutDepth) := by
  rw [BitVec.getLsbD_setWidth, State.configMask, BitVec.getLsbD_ofBoolListLE]
  match k with
  | 0 | 1 | 2 | 3 | 4 | 5 | 6 | 7 => simp
  | n + 8 => simp

/-! START by its cases (R166), but for ERROR, which `exec_in_error` answers. -/

theorem exec_start_outside_idle {s : State} (he : s.engine ≠ .error) (hi : s.engine ≠ .idle) :
    exec .start s = .next { s with
      errCode := .cmdState, errInfo := cmdStateInfo s.engine 0x01, engine := .error } := by
  have hraise : exec .start s = .next (raiseError .cmdState (cmdStateInfo s.engine 0x01) s) := if_pos hi
  rw [hraise, raiseError_outside_error he]

theorem exec_start_accepted {s : State} (hi : s.engine = .idle) (ha : s.startAccepts) :
    exec .start s = .next { s with inCount := 0, frameSeq := 0, engine := .run } :=
  (if_neg (not_not.2 hi)).trans (if_neg (not_not.2 ((configMask_eq_zero_iff s).2 ha)))

theorem exec_start_rejected {s : State} (hi : s.engine = .idle) (ha : ¬ s.startAccepts) :
    exec .start s = .next { s with
      errCode := .cfgInvalid, errInfo := s.configMask.setWidth 32, engine := .error } := by
  have hraise : exec .start s = .next (raiseError .cfgInvalid (s.configMask.setWidth 32) s) :=
    (if_neg (not_not.2 hi)).trans (if_pos (mt (configMask_eq_zero_iff s).1 ha))
  rw [hraise, raiseError_outside_error (by simp [hi])]

/-- RELEASE in a state with no frame to hand back; in HOLD it is `exec_release_in_hold` (R167). -/
theorem exec_release_outside_hold {s : State} (hh : s.engine ≠ .hold) (he : s.engine ≠ .error) :
    exec .release s = .next { s with
      errCode := .cmdState, errInfo := cmdStateInfo s.engine 0x02, engine := .error } := by
  have hraise : exec .release s = .next (raiseError .cmdState (cmdStateInfo s.engine 0x02) s) := if_pos hh
  rw [hraise, raiseError_outside_error he]

/-- Settles O10: START by its cases, the ERRINFO of a rejected configuration being the check mask. -/
theorem startRule : Obligations.StartRule := by
  unfold Obligations.StartRule
  refine ⟨decode_encode (i := .start) rfl, ?inError, ?outsideIdle, ?accepted, ?rejected⟩
  case inError => exact fun s he => exec_in_error he (by decide)
  case outsideIdle => exact fun s he hi => exec_start_outside_idle he hi
  case accepted => exact fun s hi ha => exec_start_accepted hi ha
  case rejected =>
    exact fun s hi ha => ⟨s.configMask.setWidth 32, exec_start_rejected hi ha, getLsbD_setWidth_configMask_iff s⟩

/-- Settles O9: the word is the encoding of NOP, whose meaning is to answer the state it is given. -/
theorem nopRule : Obligations.NopRule := by
  unfold Obligations.NopRule
  exact ⟨decode_encode (i := .nop) rfl, fun _ => rfl⟩

/-- Settles O11: RELEASE in HOLD, in the other states, and in ERROR, where the first error is kept. -/
theorem releaseRule : Obligations.ReleaseRule := by
  unfold Obligations.ReleaseRule
  refine ⟨decode_encode (i := .release) rfl, ?inHold, ?outsideHold, ?inError⟩
  case inHold => exact fun s hh => exec_release_in_hold hh
  case outsideHold => exact fun s hh he => exec_release_outside_hold hh he
  case inError => exact fun s he => exec_in_error he (by decide)

end Sys2Proof.Machine

/-! The three ways a turn can end, of which only the next state occurs (O6). -/

namespace Sys2Proof.Machine

/-- The outcome is a next state: neither a fault nor a refusal. -/
def Answers (o : Host.Outcome State Fault Refusal) : Prop := ∃ t, o = .next t

theorem Answers.next (s : State) : Answers (.next s) := ⟨s, rfl⟩

theorem Answers.ite {p : Prop} [Decidable p] {x y : Host.Outcome State Fault Refusal} (hx : Answers x) (hy : Answers y) :
    Answers (if p then x else y) := by
  split
  · exact hx
  · exact hy

theorem exec_answers (i : Instr) (s : State) : Answers (exec i s) := by
  obtain ⟨t, hexec, _⟩ := exec_effect i s
  exact ⟨t, hexec⟩

/-- A CMD write runs the instruction of its word, or raises ILLEGAL_CMD (R93). -/
theorem writeCmd_answers (v : Word) (s : State) : Answers (writeCmd v s) := by
  cases hd : decode (.cmd v) with
  | ok i =>
    rw [writeCmd_of_decoded hd]
    exact exec_answers i s
  | error e =>
    rw [writeCmd_of_illegal hd]
    exact .next _

theorem writeRegister_answers (off : Nat) (v : Word) (s : State) : Answers (writeRegister off v s) := by
  unfold writeRegister
  split
  · exact .next s
  · exact writeCmd_answers v s
  · exact .next _

/-- A bus write answers in every window, with an access it takes or with one that raises an error (R71). -/
theorem memWrite_answers (addr : Word) (n : Nat) (v : Word) (s : State) : Answers (memWrite addr n v s) := by
  simp only [memWrite]
  split
  · exact .ite (writeRegister_answers _ v s) (.next _)
  · exact .ite (.ite (.next _) (.next _)) (.next _)
  · exact .ite (.next s) (.next _)

/-- Of the HOST's operations only a write can run an instruction; the others answer by their definition. -/
theorem hostTurn_answers (s : State) : Answers (hostTurn s) := by
  cases hops : s.hostOps with
  | nil =>
    rw [hostTurn_idle hops]
    exact .next s
  | cons op ops =>
    cases op with
    | write addr n v =>
      rw [hostTurn_write hops]
      exact memWrite_answers addr n v _
    | read addr n => exact ⟨_, hostTurn_read hops⟩
    | waitFor target => exact ⟨_, hostTurn_waitFor hops⟩
    | waitIrq => exact ⟨_, hostTurn_waitIrq hops⟩
    | checkRun => exact ⟨_, hostTurn_checkRun hops⟩
    | frameLoop byIrq => exact ⟨_, hostTurn_frameLoop hops⟩

theorem sourceTurn_answers (s : State) : Answers (sourceTurn s) := by
  unfold sourceTurn
  split
  · exact .next s
  · exact .ite (exec_answers _ _) (.next s)

theorem engineTurn_answers (s : State) : Answers (engineTurn s) := .ite (exec_answers .processFrame s) (.next s)

theorem takeTurn_answers (turn : Turn) (s : State) : Answers (takeTurn turn s) := by
  cases turn with
  | rst => exact .next (powerOnReset s)
  | agent a =>
    cases a with
    | host => exact hostTurn_answers s
    | source => exact sourceTurn_answers s
    | engine => exact engineTurn_answers s

/-- Settles O6: a step is the turn chosen, and each agent's turn answers a next state, as does the reset input. -/
theorem stepAlwaysAnswersNext : Obligations.StepAlwaysAnswersNext := by
  unfold Obligations.StepAlwaysAnswersNext
  exact fun s => takeTurn_answers (nextTurn s).1 (nextTurn s).2

end Sys2Proof.Machine

/-! A step taken in ERROR (O28). -/

namespace Sys2Proof.Machine

/-- `t` is in ERROR with the error record, the progress registers and the stream of `s` (R182). -/
def KeepsError (s t : State) : Prop :=
  t.engine = .error ∧ t.errCode = s.errCode ∧ t.errInfo = s.errInfo ∧ t.inCount = s.inCount ∧
    t.frameSeq = s.frameSeq ∧ t.stream = s.stream

theorem KeepsError.refl {s : State} (he : s.engine = .error) : KeepsError s s := ⟨he, rfl, rfl, rfl, rfl, rfl⟩

/-- Choosing whose turn it is draws at most a number and takes at most an entry off the schedule (R8). -/
theorem nextTurn_state (s : State) : ∃ d sc, (nextTurn s).2 = { s with draws := d, schedule := sc } := by
  unfold nextTurn
  split
  · exact ⟨s.draws, _, rfl⟩
  · exact ⟨_, s.schedule, rfl⟩

/-- A write at a register's address of any width but 32 bits raises BUS_ALIGN (R71, R72). -/
theorem memWrite_regAddr_illegal {n : Nat} (hn : n ≠ 4) (s : State) (r : Reg) (v : Word) :
    memWrite (s.regAddr r) n v s = .next (raiseError .busAlign (BitVec.ofNat 32 r.offset) s) := by
  have hillegal : registerAccessLegal r.offset n = false := by simp [registerAccessLegal, hn]
  simp only [memWrite, busOffset_regAddr, Reg.offset_toNat, windowOf_regOffset, hillegal, Bool.false_eq_true, if_false]

/-- In ERROR a bus write keeps the error, or is that of the RESET word to CMD (R182, R183, R186). -/
theorem memWrite_from_error {s t : State} {addr v : Word} {n : Nat} (he : s.engine = .error)
    (h : memWrite addr n v s = .next t) :
    KeepsError s t ∨ (addr = s.regAddr .cmd ∧ n = 4 ∧ v = 0x00000003 ∧ t = softReset s) := by
  by_cases hreset : addr = s.regAddr .cmd ∧ v = 0x00000003
  · obtain ⟨rfl, rfl⟩ := hreset
    by_cases hn : n = 4
    · subst hn
      rw [memWrite_cmd] at h
      cases h
      exact .inr ⟨rfl, rfl, rfl, rfl⟩
    · rw [memWrite_regAddr_illegal hn, raiseError_in_error he] at h
      cases h
      exact .inl (.refl he)
  · refine .inl ?_
    by_cases hirq : addr = s.regAddr .irqEn
    · subst hirq
      by_cases hn : n = 4
      · subst hn
        rw [memWrite_plain (by decide)] at h
        cases h
        exact ⟨he, rfl, rfl, rfl, rfl, rfl⟩
      · rw [memWrite_regAddr_illegal hn, raiseError_in_error he] at h
        cases h
        exact .refl he
    · rw [memWrite_in_error he hreset hirq] at h
      cases h
      exact .refl he

/-- In ERROR a bus read changes the draw counter at most (R70, R183). -/
theorem memRead_in_error {s : State} (he : s.engine = .error) (addr : Word) (n : Nat) :
    ∃ d, (memRead addr n s).2 = { s with draws := d } := by
  rcases memRead_state addr n s with hread | hread
  · exact hread
  · exact ⟨s.draws, hread.trans (raiseError_in_error he _ _)⟩

/-- In ERROR a turn of the HOST keeps the error, or performs its write of the RESET word to CMD (R182, R186). -/
theorem hostTurn_from_error {s t : State} (he : s.engine = .error) (h : hostTurn s = .next t) :
    KeepsError s t ∨ ((∃ ops, s.hostOps = .write (s.regAddr .cmd) 4 0x00000003 :: ops) ∧ ∃ u, t = softReset u) := by
  cases hops : s.hostOps with
  | nil =>
    rw [hostTurn_idle hops] at h
    cases h
    exact .inl (.refl he)
  | cons op ops =>
    cases op with
    | write addr n v =>
      rw [hostTurn_write hops] at h
      obtain hkeeps | ⟨rfl, rfl, rfl, rfl⟩ := memWrite_from_error (s := { s with hostOps := ops }) he h
      · exact .inl hkeeps
      · exact .inr ⟨⟨ops, rfl⟩, _, rfl⟩
    | read addr n =>
      rw [hostTurn_read hops] at h
      obtain ⟨d, hread⟩ := memRead_in_error (s := { s with hostOps := ops }) he addr n
      rw [hread] at h
      cases h
      exact .inl ⟨he, rfl, rfl, rfl, rfl, rfl⟩
    | waitFor target =>
      cases (hostTurn_waitFor hops).symm.trans h
      exact .inl ⟨he, rfl, rfl, rfl, rfl, rfl⟩
    | waitIrq =>
      cases (hostTurn_waitIrq hops).symm.trans h
      exact .inl ⟨he, rfl, rfl, rfl, rfl, rfl⟩
    | checkRun =>
      cases (hostTurn_checkRun hops).symm.trans h
      exact .inl ⟨he, rfl, rfl, rfl, rfl, rfl⟩
    | frameLoop byIrq =>
      cases (hostTurn_frameLoop hops).symm.trans h
      exact .inl ⟨he, rfl, rfl, rfl, rfl, rfl⟩

/-- Settles O28: in ERROR the SOURCE and the ENGINE cannot move, so the way out is a turn of the HOST or the reset input. -/
theorem errorLeftOnlyByReset : Obligations.ErrorLeftOnlyByReset := by
  unfold Obligations.ErrorLeftOnlyByReset
  intro s t he hstep
  obtain ⟨d, sc, hnext⟩ := nextTurn_state s
  have hrun : s.engine ≠ .run := by simp [he]
  have hproc : s.engine ≠ .proc := by simp [he]
  rw [step, hnext] at hstep
  cases hturn : (nextTurn s).1 with
  | rst =>
    rw [hturn] at hstep
    cases hstep
    exact .inr ⟨.inl rfl, rfl, rfl, rfl⟩
  | agent a =>
    rw [hturn] at hstep
    cases a with
    | host =>
      obtain hkeeps | ⟨hreset, u, rfl⟩ := hostTurn_from_error (s := { s with draws := d, schedule := sc }) he hstep
      · exact .inl hkeeps
      · exact .inr ⟨.inr ⟨rfl, hreset⟩, rfl, rfl, rfl⟩
    | source =>
      cases (sourceTurn_outside_run (s := { s with draws := d, schedule := sc }) hrun).symm.trans hstep
      exact .inl ⟨he, rfl, rfl, rfl, rfl, rfl⟩
    | engine =>
      cases (engineTurn_outside_proc (s := { s with draws := d, schedule := sc }) hproc).symm.trans hstep
      exact .inl ⟨he, rfl, rfl, rfl, rfl, rfl⟩

end Sys2Proof.Machine

/-! The recorded model fault and the interrupt level (O29, O42). -/

namespace Sys2Proof.Machine

theorem Quiet.unwrittenLutRead_eq {s u : State} (h : Quiet s u) : u.unwrittenLutRead = s.unwrittenLutRead := by
  obtain ⟨_, _, _, _, _, rfl⟩ := h
  rfl

/-- A transition records the model fault or leaves it as it is: only PROCESS_FRAME writes it, adding to it (R185). -/
theorem Transition.unwrittenLutRead_kept {s t : State} (h : Transition s t) (hfault : s.unwrittenLutRead = true) :
    t.unwrittenLutRead = true := by
  cases h with
  | error | softReset => simpa using hfault
  | publish | lutRange => simp [recordUnwrittenLut, hfault]
  | stay | start | release | byte | endOfStream | setFrameW | setFrameH | setMag | setLutSize | setIrqEn | writeLut =>
    exact hfault

/-- Settles O29: a step is the reset input, which leaves the record of the model fault, or one transition. -/
theorem modelFaultNeverCleared : Obligations.ModelFaultNeverCleared := by
  unfold Obligations.ModelFaultNeverCleared
  intro s t hfault hstep
  obtain ⟨u, hquiet, hcase⟩ := step_transition hstep
  rw [← hquiet.unwrittenLutRead_eq] at hfault
  obtain ⟨_, rfl⟩ | htransition := hcase
  · exact hfault
  · exact htransition.unwrittenLutRead_kept hfault

/-- Settles O42: the level by its definition, its bit of STATUS, and IDLE after both resets. -/
theorem irqLevel : Obligations.IrqLevel := by
  unfold Obligations.IrqLevel
  intro s
  obtain ⟨_, _, _, _, hirq⟩ := status_flags s
  exact ⟨irq_eq_true_iff s, hirq, irq_idle (softReset_engine s), irq_idle rfl⟩

end Sys2Proof.Machine
